-- ==== Sys2Proof/Word.lean ====
section
/-! DEFINITION. The word types of the core (R8, R11 of 00_scope.md): 32-bit words and addresses, 8-bit bytes,
5-bit register numbers, 16-bit immediates and 26-bit jump targets. -/

namespace Sys2Proof

/-- A 32-bit word, also an address (R8, R11). -/
abbrev Word := BitVec 32

/-- A byte of memory, of the input or of the output. -/
abbrev Byte := BitVec 8

/-- A register number, 0 to 31, as an instruction encodes it (R94). -/
abbrev RegNum := BitVec 5

/-- A constant shift amount, 0 to 31 (R93). -/
abbrev Shamt := BitVec 5

/-- The 16-bit immediate field of the I format (R91). -/
abbrev Imm := BitVec 16

/-- The 26-bit target field of the J format (R91). -/
abbrev Target := BitVec 26

end Sys2Proof
end

