-- ==== Sys2Proof/Config.lean ====
section
/-! DEFINITION. What is fixed for one machine: the named launch parameters of R9 (00_scope.md), with the
spec's defaults, the Block descriptors and standard layout (R33, R52), and the addresses of the two I/O ports
(R59). The spec leaves no value free, so there is no opaque constant here. -/

namespace Sys2Proof

/-- `PC_LIMIT_MODE`: the upper end of the fetch window (R25; D2). -/
inductive PcLimitMode where
  | inclusive
  | strict
  deriving DecidableEq, Repr

/-- `DELAY_SLOT_BRANCH`: a control transfer in a delay slot traps, or runs by the latch (R238, R239; D3). -/
inductive DelaySlotBranch where
  | trap
  | latch
  deriving DecidableEq, Repr

/-- `DIV_OVERFLOW`: DIV of 0x80000000 by -1 ends the run, or wraps (R170; D12). -/
inductive DivOverflow where
  | fault
  | wrap
  deriving DecidableEq, Repr

/-- `EXIT_CODES`: the host's exit status for each kind of trap (R281; D18). -/
structure ExitCodes where
  ovf : Byte
  mem : Byte
  inv : Byte
  deriving DecidableEq, Repr

/-- The named parameters of R9 that a step or the exit status depends on. `IMAGE` and `INPUT`, the other
two launch inputs, are arguments of `Machine.launch`. -/
structure Params where
  pcLimitMode : PcLimitMode
  delaySlotBranch : DelaySlotBranch
  jalFieldCheck : Bool
  strictReservedFields : Bool
  divOverflow : DivOverflow
  exitCodes : ExitCodes
  deriving DecidableEq, Repr

/-- The default of every parameter (the table of R9). -/
def Params.default : Params where
  pcLimitMode := .inclusive
  delaySlotBranch := .trap
  jalFieldCheck := true
  strictReservedFields := false
  divOverflow := .fault
  exitCodes := ⟨0xF6#8, 0xF5#8, 0xF4#8⟩

/-- The three exit codes "must be distinct" (R281). -/
def Params.legal (p : Params) : Bool :=
  p.exitCodes.ovf != p.exitCodes.mem && p.exitCodes.ovf != p.exitCodes.inv &&
    p.exitCodes.mem != p.exitCodes.inv

/-- A Block's descriptor (R33): `readable` set means "read-only", `writeable` set means "write-only". -/
structure Block where
  start : Word
  length : Word
  readable : Bool
  writeable : Bool
  deriving DecidableEq, Repr

/-- The null/termination sentinel (R52). -/
def sentinelBlock : Block := ⟨0x00000000#32, 4#32, true, false⟩

/-- Instruction memory (R52). -/
def instrBlock : Block := ⟨0x10000000#32, 0x01000000#32, true, false⟩

/-- Data memory (R52; "read/write" is neither flag set, C17). -/
def dataBlock : Block := ⟨0x20000000#32, 0x04000000#32, false, false⟩

/-- The standard layout installed at startup (R52), which never changes. -/
def standardLayout : List Block := [sentinelBlock, instrBlock, dataBlock]

/-- The reset value of PC, the load address of the image and the value of PCMin (R24, R36; D1). -/
def imageBase : Word := 0x10000000#32

/-- The greatest length of an image, the length of instruction memory (R310). -/
def maxImageLength : Nat := 0x01000000

/-- The input port, read only (R59). -/
def inputPort : Word := 0x30000000#32

/-- The output port, written only (R59). -/
def outputPort : Word := 0x30000004#32

end Sys2Proof
end

