-- ==== Sys2Proof/Syntax.lean ====
section
/-! DEFINITION. The instructions, one constructor per row of spec/opcode_table.json, operands in the order of the
assembler forms of R106 (30_encoding.md), and the reasons a word is no instruction (R273, 60_exceptions.md).
A field an instruction ignores (R99) is no operand of it. -/

namespace Sys2Proof

/-- The 53 instructions (R3). -/
inductive Instr where
  -- shifts (40_shift.md)
  | sll (rd rt : RegNum) (shamt : Shamt)
  | srl (rd rt : RegNum) (shamt : Shamt)
  | sra (rd rt : RegNum) (shamt : Shamt)
  | sllv (rd rt rs : RegNum)
  | srlv (rd rt rs : RegNum)
  | srav (rd rt rs : RegNum)
  -- register jumps (43_control.md)
  | jr (rs : RegNum)
  | jalr (rd rs : RegNum)
  -- HI/LO moves, multiply and divide (41_hilo.md)
  | mfhi (rd : RegNum)
  | mthi (rs : RegNum)
  | mflo (rd : RegNum)
  | mtlo (rs : RegNum)
  | mult (rs rt : RegNum)
  | multu (rs rt : RegNum)
  | div (rs rt : RegNum)
  | divu (rs rt : RegNum)
  -- register ALU (42_alu.md)
  | add (rd rs rt : RegNum)
  | addu (rd rs rt : RegNum)
  | sub (rd rs rt : RegNum)
  | subu (rd rs rt : RegNum)
  | and (rd rs rt : RegNum)
  | or (rd rs rt : RegNum)
  | xor (rd rs rt : RegNum)
  | slt (rd rs rt : RegNum)
  | sltu (rd rs rt : RegNum)
  -- REGIMM branches (43_control.md)
  | bltz (rs : RegNum) (imm : Imm)
  | bgez (rs : RegNum) (imm : Imm)
  | bltzal (rs : RegNum) (imm : Imm)
  | bgezal (rs : RegNum) (imm : Imm)
  -- region jumps and compare branches (43_control.md)
  | j (target : Target)
  | jal (target : Target)
  | beq (rs rt : RegNum) (imm : Imm)
  | bne (rs rt : RegNum) (imm : Imm)
  | blez (rs : RegNum) (imm : Imm)
  | bgtz (rs : RegNum) (imm : Imm)
  -- immediate ALU (42_alu.md)
  | addi (rt rs : RegNum) (imm : Imm)
  | addiu (rt rs : RegNum) (imm : Imm)
  | slti (rt rs : RegNum) (imm : Imm)
  | sltiu (rt rs : RegNum) (imm : Imm)
  | andi (rt rs : RegNum) (imm : Imm)
  | ori (rt rs : RegNum) (imm : Imm)
  | xori (rt rs : RegNum) (imm : Imm)
  | lui (rt : RegNum) (imm : Imm)
  -- loads and stores (44_loadstore.md)
  | lb (rt : RegNum) (imm : Imm) (rs : RegNum)
  | lh (rt : RegNum) (imm : Imm) (rs : RegNum)
  | lwl (rt : RegNum) (imm : Imm) (rs : RegNum)
  | lw (rt : RegNum) (imm : Imm) (rs : RegNum)
  | lbu (rt : RegNum) (imm : Imm) (rs : RegNum)
  | lhu (rt : RegNum) (imm : Imm) (rs : RegNum)
  | lwr (rt : RegNum) (imm : Imm) (rs : RegNum)
  | sb (rt : RegNum) (imm : Imm) (rs : RegNum)
  | sh (rt : RegNum) (imm : Imm) (rs : RegNum)
  | sw (rt : RegNum) (imm : Imm) (rs : RegNum)
  deriving DecidableEq, Repr

/-- The five reasons of the Invalid trap (R273). The decoder gives the first four, the dispatch of a control
transfer in a delay slot the fifth. -/
inductive InvalidReason where
  /-- A primary opcode not in R95. -/
  | unknownOpcode
  /-- Opcode 0x00 with a funct not in R96. -/
  | unknownFunct
  /-- Opcode 0x01 with an rt not in R97. -/
  | unknownRegimm
  /-- A field the encoding requires to be zero is not (R98, R101, R103, R104). -/
  | reservedField
  /-- A control transfer in a delay slot under `DELAY_SLOT_BRANCH = Trap` (R238). -/
  | delaySlotBranch
  deriving DecidableEq, Repr

end Sys2Proof
end

