-- ==== Sys2Proof/WellFormed.lean ====
section
/-! DEFINITION. When an instruction is one the encoding admits. The operands' types fix their widths, so the one
check left is JAL's: under `JAL_FIELD_CHECK` word bits 20:6, which are bits 20:6 of its target, are zero (R103). -/

namespace Sys2Proof

/-- Every operand is one the encoding of the instruction admits under the parameters `p`. -/
def Instr.wellFormed (p : Params) : Instr → Bool
  | .sll _ _ _ => true
  | .srl _ _ _ => true
  | .sra _ _ _ => true
  | .sllv _ _ _ => true
  | .srlv _ _ _ => true
  | .srav _ _ _ => true
  | .jr _ => true
  | .jalr _ _ => true
  | .mfhi _ => true
  | .mthi _ => true
  | .mflo _ => true
  | .mtlo _ => true
  | .mult _ _ => true
  | .multu _ _ => true
  | .div _ _ => true
  | .divu _ _ => true
  | .add _ _ _ => true
  | .addu _ _ _ => true
  | .sub _ _ _ => true
  | .subu _ _ _ => true
  | .and _ _ _ => true
  | .or _ _ _ => true
  | .xor _ _ _ => true
  | .slt _ _ _ => true
  | .sltu _ _ _ => true
  | .bltz _ _ => true
  | .bgez _ _ => true
  | .bltzal _ _ => true
  | .bgezal _ _ => true
  | .j _ => true
  | .jal target => !p.jalFieldCheck || target.extractLsb' 6 15 == 0#15
  | .beq _ _ _ => true
  | .bne _ _ _ => true
  | .blez _ _ => true
  | .bgtz _ _ => true
  | .addi _ _ _ => true
  | .addiu _ _ _ => true
  | .slti _ _ _ => true
  | .sltiu _ _ _ => true
  | .andi _ _ _ => true
  | .ori _ _ _ => true
  | .xori _ _ _ => true
  | .lui _ _ => true
  | .lb _ _ _ => true
  | .lh _ _ _ => true
  | .lwl _ _ _ => true
  | .lw _ _ _ => true
  | .lbu _ _ _ => true
  | .lhu _ _ _ => true
  | .lwr _ _ _ => true
  | .sb _ _ _ => true
  | .sh _ _ _ => true
  | .sw _ _ _ => true

end Sys2Proof
end

