-- ==== Sys2Proof/Decode.lean ====
section
/-! DEFINITION. The fields of an instruction word (R91, R92), the decoder (R95 to R105 of 30_encoding.md), total on
every 32-bit word and rejecting by name, and after it the encoder, written from the same tables. -/

namespace Sys2Proof

/-! ## Fields -/

/-- The `n` bits of `w` from bit `lo` upward (R10). -/
def bitField (w : Word) (lo n : Nat) : BitVec n := w.extractLsb' lo n

/-- `op = w[31:26]` (R92). -/
def fieldOp (w : Word) : BitVec 6 := bitField w 26 6

/-- `rs = w[25:21]` (R92). -/
def fieldRs (w : Word) : RegNum := bitField w 21 5

/-- `rt = w[20:16]` (R92). -/
def fieldRt (w : Word) : RegNum := bitField w 16 5

/-- `rd = w[15:11]` (R92). -/
def fieldRd (w : Word) : RegNum := bitField w 11 5

/-- `shamt = w[10:6]` (R92). -/
def fieldShamt (w : Word) : Shamt := bitField w 6 5

/-- `funct = w[5:0]` (R92). -/
def fieldFunct (w : Word) : BitVec 6 := bitField w 0 6

/-- `imm = w[15:0]` (R92). -/
def fieldImm (w : Word) : Imm := bitField w 0 16

/-- `target = w[25:0]` (R92). -/
def fieldTarget (w : Word) : Target := bitField w 0 26

/-- The positions of JAL's `rt`, `rd` and `shamt`: `w[20:6]` (R103). -/
def fieldJalReserved (w : Word) : BitVec 15 := bitField w 6 15

/-! ## Decoding -/

/-- The instruction if its reserved fields are as required, else Invalid(ReservedField) (R101). -/
def requireFields (ok : Bool) (i : Instr) : Except InvalidReason Instr :=
  if ok then .ok i else .error .reservedField

/-- Opcode 0x00, SPECIAL: the function map (R96) with the reserved fields of R98 and, when
`STRICT_RESERVED_FIELDS` is set, of R104. -/
def decodeSpecial (p : Params) (w : Word) : Except InvalidReason Instr :=
  let rs := fieldRs w
  let rt := fieldRt w
  let rd := fieldRd w
  let sh := fieldShamt w
  let lax := !p.strictReservedFields
  match fieldFunct w with
  | 0x00#6 => requireFields (lax || rs == 0#5) (.sll rd rt sh)
  | 0x02#6 => requireFields (lax || rs == 0#5) (.srl rd rt sh)
  | 0x03#6 => requireFields (lax || rs == 0#5) (.sra rd rt sh)
  | 0x04#6 => requireFields (sh == 0#5) (.sllv rd rt rs)
  | 0x06#6 => requireFields (sh == 0#5) (.srlv rd rt rs)
  | 0x07#6 => requireFields (sh == 0#5) (.srav rd rt rs)
  | 0x08#6 => requireFields (sh == 0#5 && (lax || (rt == 0#5 && rd == 0#5))) (.jr rs)
  | 0x09#6 => requireFields (sh == 0#5 && rt == 0#5) (.jalr rd rs)
  | 0x10#6 => requireFields (sh == 0#5 && (lax || (rs == 0#5 && rt == 0#5))) (.mfhi rd)
  | 0x11#6 => requireFields (sh == 0#5 && rt == 0#5 && rd == 0#5) (.mthi rs)
  | 0x12#6 => requireFields (sh == 0#5 && (lax || (rs == 0#5 && rt == 0#5))) (.mflo rd)
  | 0x13#6 => requireFields (sh == 0#5 && rt == 0#5 && rd == 0#5) (.mtlo rs)
  | 0x18#6 => requireFields (sh == 0#5 && (lax || rd == 0#5)) (.mult rs rt)
  | 0x19#6 => requireFields (sh == 0#5 && (lax || rd == 0#5)) (.multu rs rt)
  | 0x1A#6 => requireFields (sh == 0#5 && (lax || rd == 0#5)) (.div rs rt)
  | 0x1B#6 => requireFields (sh == 0#5 && (lax || rd == 0#5)) (.divu rs rt)
  | 0x20#6 => requireFields (sh == 0#5) (.add rd rs rt)
  | 0x21#6 => requireFields (sh == 0#5) (.addu rd rs rt)
  | 0x22#6 => requireFields (sh == 0#5) (.sub rd rs rt)
  | 0x23#6 => requireFields (sh == 0#5) (.subu rd rs rt)
  | 0x24#6 => requireFields (sh == 0#5) (.and rd rs rt)
  | 0x25#6 => requireFields (sh == 0#5) (.or rd rs rt)
  | 0x26#6 => requireFields (sh == 0#5) (.xor rd rs rt)
  | 0x2A#6 => requireFields (sh == 0#5) (.slt rd rs rt)
  | 0x2B#6 => requireFields (sh == 0#5) (.sltu rd rs rt)
  | _ => .error .unknownFunct

/-- Opcode 0x01, REGIMM: the map on `rt` (R97). -/
def decodeRegimm (w : Word) : Except InvalidReason Instr :=
  let rs := fieldRs w
  let imm := fieldImm w
  match fieldRt w with
  | 0x00#5 => .ok (.bltz rs imm)
  | 0x01#5 => .ok (.bgez rs imm)
  | 0x10#5 => .ok (.bltzal rs imm)
  | 0x11#5 => .ok (.bgezal rs imm)
  | _ => .error .unknownRegimm

/-- `Decode(w)` (R105): the primary map (R95) and the maps under SPECIAL and REGIMM, then the reserved fields
(R98, R103, R104). A word in no map is Invalid by the reason of R100. -/
def decode (p : Params) (w : Word) : Except InvalidReason Instr :=
  let rs := fieldRs w
  let rt := fieldRt w
  let imm := fieldImm w
  match fieldOp w with
  | 0x00#6 => decodeSpecial p w
  | 0x01#6 => decodeRegimm w
  | 0x02#6 => .ok (.j (fieldTarget w))
  | 0x03#6 => requireFields (!p.jalFieldCheck || fieldJalReserved w == 0#15) (.jal (fieldTarget w))
  | 0x04#6 => .ok (.beq rs rt imm)
  | 0x05#6 => .ok (.bne rs rt imm)
  | 0x06#6 => requireFields (rt == 0#5) (.blez rs imm)
  | 0x07#6 => requireFields (rt == 0#5) (.bgtz rs imm)
  | 0x08#6 => .ok (.addi rt rs imm)
  | 0x09#6 => .ok (.addiu rt rs imm)
  | 0x0A#6 => .ok (.slti rt rs imm)
  | 0x0B#6 => .ok (.sltiu rt rs imm)
  | 0x0C#6 => .ok (.andi rt rs imm)
  | 0x0D#6 => .ok (.ori rt rs imm)
  | 0x0E#6 => .ok (.xori rt rs imm)
  | 0x0F#6 => requireFields (rs == 0#5) (.lui rt imm)
  | 0x20#6 => .ok (.lb rt imm rs)
  | 0x21#6 => .ok (.lh rt imm rs)
  | 0x22#6 => .ok (.lwl rt imm rs)
  | 0x23#6 => .ok (.lw rt imm rs)
  | 0x24#6 => .ok (.lbu rt imm rs)
  | 0x25#6 => .ok (.lhu rt imm rs)
  | 0x26#6 => .ok (.lwr rt imm rs)
  | 0x28#6 => .ok (.sb rt imm rs)
  | 0x29#6 => .ok (.sh rt imm rs)
  | 0x2B#6 => .ok (.sw rt imm rs)
  | _ => .error .unknownOpcode

/-! ## Encoding -/

/-- The field value `v` placed with its lowest bit at bit `lo` of a word. -/
def placeAt {n : Nat} (lo : Nat) (v : BitVec n) : Word := v.setWidth 32 <<< lo

/-- The R format with opcode 0x00 (R91). -/
def encodeR (rs rt rd : RegNum) (sh : Shamt) (funct : BitVec 6) : Word :=
  placeAt 21 rs ||| placeAt 16 rt ||| placeAt 11 rd ||| placeAt 6 sh ||| placeAt 0 funct

/-- The I format (R91). -/
def encodeI (op : BitVec 6) (rs rt : RegNum) (imm : Imm) : Word :=
  placeAt 26 op ||| placeAt 21 rs ||| placeAt 16 rt ||| placeAt 0 imm

/-- The J format (R91). -/
def encodeJ (op : BitVec 6) (target : Target) : Word :=
  placeAt 26 op ||| placeAt 0 target

/-- The word of an instruction: every operand in its field and every other field zero (R95 to R98). -/
def encode : Instr → Word
  | .sll rd rt sh => encodeR 0 rt rd sh 0x00#6
  | .srl rd rt sh => encodeR 0 rt rd sh 0x02#6
  | .sra rd rt sh => encodeR 0 rt rd sh 0x03#6
  | .sllv rd rt rs => encodeR rs rt rd 0 0x04#6
  | .srlv rd rt rs => encodeR rs rt rd 0 0x06#6
  | .srav rd rt rs => encodeR rs rt rd 0 0x07#6
  | .jr rs => encodeR rs 0 0 0 0x08#6
  | .jalr rd rs => encodeR rs 0 rd 0 0x09#6
  | .mfhi rd => encodeR 0 0 rd 0 0x10#6
  | .mthi rs => encodeR rs 0 0 0 0x11#6
  | .mflo rd => encodeR 0 0 rd 0 0x12#6
  | .mtlo rs => encodeR rs 0 0 0 0x13#6
  | .mult rs rt => encodeR rs rt 0 0 0x18#6
  | .multu rs rt => encodeR rs rt 0 0 0x19#6
  | .div rs rt => encodeR rs rt 0 0 0x1A#6
  | .divu rs rt => encodeR rs rt 0 0 0x1B#6
  | .add rd rs rt => encodeR rs rt rd 0 0x20#6
  | .addu rd rs rt => encodeR rs rt rd 0 0x21#6
  | .sub rd rs rt => encodeR rs rt rd 0 0x22#6
  | .subu rd rs rt => encodeR rs rt rd 0 0x23#6
  | .and rd rs rt => encodeR rs rt rd 0 0x24#6
  | .or rd rs rt => encodeR rs rt rd 0 0x25#6
  | .xor rd rs rt => encodeR rs rt rd 0 0x26#6
  | .slt rd rs rt => encodeR rs rt rd 0 0x2A#6
  | .sltu rd rs rt => encodeR rs rt rd 0 0x2B#6
  | .bltz rs imm => encodeI 0x01#6 rs 0x00#5 imm
  | .bgez rs imm => encodeI 0x01#6 rs 0x01#5 imm
  | .bltzal rs imm => encodeI 0x01#6 rs 0x10#5 imm
  | .bgezal rs imm => encodeI 0x01#6 rs 0x11#5 imm
  | .j target => encodeJ 0x02#6 target
  | .jal target => encodeJ 0x03#6 target
  | .beq rs rt imm => encodeI 0x04#6 rs rt imm
  | .bne rs rt imm => encodeI 0x05#6 rs rt imm
  | .blez rs imm => encodeI 0x06#6 rs 0 imm
  | .bgtz rs imm => encodeI 0x07#6 rs 0 imm
  | .addi rt rs imm => encodeI 0x08#6 rs rt imm
  | .addiu rt rs imm => encodeI 0x09#6 rs rt imm
  | .slti rt rs imm => encodeI 0x0A#6 rs rt imm
  | .sltiu rt rs imm => encodeI 0x0B#6 rs rt imm
  | .andi rt rs imm => encodeI 0x0C#6 rs rt imm
  | .ori rt rs imm => encodeI 0x0D#6 rs rt imm
  | .xori rt rs imm => encodeI 0x0E#6 rs rt imm
  | .lui rt imm => encodeI 0x0F#6 0 rt imm
  | .lb rt imm rs => encodeI 0x20#6 rs rt imm
  | .lh rt imm rs => encodeI 0x21#6 rs rt imm
  | .lwl rt imm rs => encodeI 0x22#6 rs rt imm
  | .lw rt imm rs => encodeI 0x23#6 rs rt imm
  | .lbu rt imm rs => encodeI 0x24#6 rs rt imm
  | .lhu rt imm rs => encodeI 0x25#6 rs rt imm
  | .lwr rt imm rs => encodeI 0x26#6 rs rt imm
  | .sb rt imm rs => encodeI 0x28#6 rs rt imm
  | .sh rt imm rs => encodeI 0x29#6 rs rt imm
  | .sw rt imm rs => encodeI 0x2B#6 rs rt imm

/-! ## The host's view of the decoder -/

/-- The word whose low `nbits` bits are those of `w`, every bit above them 0. -/
def tableWord (nbits w : Nat) : Word := BitVec.ofNat 32 (w % 2 ^ nbits)

/-- The instruction the decoder reads, under the default parameters, from a word numbered as
spec/opcode_table.json numbers it; none where it refuses. Every instruction is one word (R90), so the table's
bit numbers are the word's. -/
def decodeTableWord (nbits w : Nat) : Option Instr :=
  (decode Params.default (tableWord nbits w)).toOption

end Sys2Proof
end

