-- ==== Sys2Proof/Machine/State.lean ====
section
/-! DEFINITION. The state of the core (R20 of 10_state.md), the reset state (R36), and the reasons a run or a launch
ends (R118, R270 to R276 of 60_exceptions.md; R310 of 70_reset_and_hazards.md). -/

namespace Sys2Proof.Machine

/-- The complete state of the core (R20). Register 0 has no storage (R20, R21), so `regs` holds registers 1 to 31,
register `i` at index `i - 1`. `mem` is the storage of the Blocks, one list of (global address, byte) pairs,
addresses strictly rising, no byte 0 listed. `params` is the model's own field: the launch parameters of R9,
which no step changes. -/
structure State where
  pc : Word
  pcNext : Word
  jumped : Bool
  regs : Vector Word 31
  hi : Word
  lo : Word
  pcMin : Word
  pcMax : Word
  blocks : List Block
  mem : List Host.Cell
  input : List Byte
  output : List Byte
  params : Params
  deriving DecidableEq, Repr

/-- The state when the first step begins (R36), for the empty image, the empty input and the default parameters.
DESIGN CHOICE of the spec (D1, D6, D7), unsafe: registers 1 to 31, HI and PCNext are 0, `jumped` is false, PCMin is
0x10000000 (log 4, 5, 6). `Machine.launch` gives the state for any other launch (log 3). -/
def State.reset : State where
  pc := imageBase
  pcNext := 0#32
  jumped := false
  regs := Vector.replicate 31 0#32
  hi := 0#32
  lo := 0#32
  pcMin := imageBase
  pcMax := imageBase
  blocks := standardLayout
  mem := []
  input := []
  output := []
  params := Params.default

/-- The four reasons of the Memory trap (R272). -/
inductive MemoryReason where
  /-- PC misaligned or out of the fetch window (R110). -/
  | badPC
  /-- No Block selected, or a local address not below its length (R53 to R57, R62). -/
  | badAddress
  /-- A normal access the Block's flags deny (R53, R54). -/
  | permission
  /-- LH, LHU, SH at an odd address, LW, SW at one not a multiple of 4 (R252). -/
  | misaligned
  deriving DecidableEq, Repr

/-- A trap: its kind and reason (R270 to R273). -/
inductive Trap where
  | overflow
  | memory (reason : MemoryReason)
  | invalid (reason : InvalidReason)
  deriving DecidableEq, Repr

/-- The one reason of `Undefined` (R276). -/
inductive UndefinedReason where
  | divOverflow
  deriving DecidableEq, Repr

/-- How a run ends (R118), with the state it leaves (R279). `Continue` is `Host.Outcome.next`; each of the three
other outcomes of R118 is a constructor here. -/
inductive Fault where
  /-- `Trap(kind, reason)`: raised by the fetch, the decoder, the delay-slot check and the instructions R270 to R273
  name, as the spec says, so safe. `left` is the state R279 describes. -/
  | trap (t : Trap) (left : State)
  /-- `Exit(status)`: the normal end, raised by the step whose execution leaves PC = 0 (R116), as the spec says, so
  safe. `left` is the state after that execution. -/
  | exit (status : Byte) (left : State)
  /-- `Undefined(reason)`: raised by DIV of 0x80000000 by -1 under `DIV_OVERFLOW = Fault` (R170, R276); safe, since
  nothing can be proved of the run's continuation. -/
  | undefined (reason : UndefinedReason) (left : State)
  deriving DecidableEq, Repr

/-- What is refused without a step. -/
inductive Refusal where
  /-- An instruction whose meaning is not written yet; no arm of `exec` answers it. Safe. -/
  | notModelled (mnemonic : String)
  /-- Raised by `launch` for an image whose length is not a multiple of 4 (R310, R311; D4). Safe. -/
  | imageNotWordMultiple
  /-- Raised by `launch` for an image longer than instruction memory (R310, R311; D5). Safe. -/
  | imageTooLarge
  deriving DecidableEq, Repr

end Sys2Proof.Machine
end

