-- ==== Sys2Proof/Machine/Ops.lean ====
section
/-! DEFINITION. The named operations over registers, memory, the ports, the latch and the run's end, which every
meaning and the step are written over. -/

namespace Sys2Proof.Machine

/-- What a step or a meaning answers. -/
abbrev Out := Host.Outcome State Fault Refusal

/-! ## The end of a run -/

/-- Raising a trap, the shared operation for all of them. There is no trap entry: nothing is saved, no mode changes and
control goes nowhere (R278); the trap ends the run with the state it finds (R270, R279). There is no return from a
trap (R280), so no operation for one. -/
def raise (t : Trap) (s : State) : Out := .fault (.trap t s)

/-- `raise Undefined(reason)` (R15, R276). -/
def raiseUndefined (r : UndefinedReason) (s : State) : Out := .fault (.undefined r s)

/-! ## General registers -/

/-- The index of register `i`'s storage, for `i` not 0. -/
def regIndex (i : RegNum) : Fin 31 := ⟨i.toNat - 1, by have := i.isLt; omega⟩

/-- The read port (R21): register 0 reads as 0. -/
def State.reg (s : State) (i : RegNum) : Word :=
  if i = 0#5 then 0#32 else s.regs[regIndex i]

/-- The write port (R22): a write to register 0 is discarded. -/
def State.setReg (s : State) (i : RegNum) (v : Word) : State :=
  if i = 0#5 then s else { s with regs := s.regs.set (regIndex i) v }

/-- HI and LO together (R29). -/
def State.setHiLo (s : State) (hi lo : Word) : State := { s with hi := hi, lo := lo }

/-! ## Bytes and words of storage -/

/-- The byte listed at an address; an unlisted one is 0, since storage is "initialized to zero" (R33, R36). -/
def Memory.getByte : List Host.Cell → Nat → Byte
  | [], _ => 0#8
  | (k, b) :: rest, a => if k = a then b else Memory.getByte rest a

/-- Writing one byte: the list stays sorted, and a byte written as 0 is not listed. -/
def Memory.setByte : List Host.Cell → Nat → Byte → List Host.Cell
  | [], a, v => if v = 0#8 then [] else [(a, v)]
  | (k, b) :: rest, a, v =>
    if a < k then (if v = 0#8 then (k, b) :: rest else (a, v) :: (k, b) :: rest)
    else if a = k then (if v = 0#8 then rest else (a, v) :: rest)
    else (k, b) :: Memory.setByte rest a v

/-- The canonical form: addresses strictly rising, no listed byte 0. -/
def Memory.wf : List Host.Cell → Bool
  | [] => true
  | (k, b) :: rest => b != 0#8 && rest.all (fun c => decide (k < c.1)) && Memory.wf rest

/-- Four bytes in the order of their addresses make one word, the first the most significant (R63). -/
def wordOfBytes (b0 b1 b2 b3 : Byte) : Word :=
  (b0.setWidth 32 <<< 24) ||| (b1.setWidth 32 <<< 16) ||| (b2.setWidth 32 <<< 8) ||| b3.setWidth 32

/-- `ByteAt(w, n)` (R251): the byte of a word at offset `n` from its address, 0 the most significant (R63). -/
def byteAt (w : Word) (n : Nat) : Byte := (w >>> (8 * (3 - n))).setWidth 8

/-- The stored word whose first byte is at address `a`. -/
def Memory.getWord (m : List Host.Cell) (a : Nat) : Word :=
  wordOfBytes (Memory.getByte m a) (Memory.getByte m (a + 1)) (Memory.getByte m (a + 2)) (Memory.getByte m (a + 3))

/-- Storing all 32 bits of a word, its first byte at address `a` (R54, R63). -/
def Memory.setWord (m : List Host.Cell) (a : Nat) (v : Word) : List Host.Cell :=
  Memory.setByte (Memory.setByte (Memory.setByte (Memory.setByte m
    a (byteAt v 0)) (a + 1) (byteAt v 1)) (a + 2) (byteAt v 2)) (a + 3) (byteAt v 3)

/-! ## Blocks: bounds and permissions -/

/-- `ReadDenied` (R54). -/
def Block.readDenied (b : Block) : Bool := b.writeable && !b.readable

/-- `WriteDenied` (R54). -/
def Block.writeDenied (b : Block) : Bool := b.readable

/-- The global address of the first byte of the storage word that a local address selects (R53:
`storage[local_addr / 4]`). -/
def Block.wordAddress (b : Block) (localAddr : Word) : Nat :=
  b.start.toNat + 4 * (localAddr.toNat / 4)

/-- A Block's check of an access (R53, R54): bounds first, then the permission unless the access is forced. -/
def Block.check (b : Block) (localAddr : Word) (denied force : Bool) : Option MemoryReason :=
  if b.length ≤ localAddr then some .badAddress
  else if !force && denied then some .permission
  else none

/-- Block read (R53). -/
def Block.read (b : Block) (m : List Host.Cell) (localAddr : Word) (force : Bool) : Except MemoryReason Word :=
  match Block.check b localAddr (Block.readDenied b) force with
  | some r => .error r
  | none => .ok (Memory.getWord m (Block.wordAddress b localAddr))

/-- Block write (R54). -/
def Block.write (b : Block) (m : List Host.Cell) (localAddr v : Word) (force : Bool) :
    Except MemoryReason (List Host.Cell) :=
  match Block.check b localAddr (Block.writeDenied b) force with
  | some r => .error r
  | none => .ok (Memory.setWord m (Block.wordAddress b localAddr) v)

/-- Greatest-start lookup: among the Blocks with `start <= a`, the one with the largest `start` (R57). -/
def findBlock : List Block → Word → Option Block
  | [], _ => none
  | b :: rest, a =>
    match findBlock rest a with
    | none => if b.start ≤ a then some b else none
    | some c => if b.start ≤ a ∧ c.start < b.start then some b else some c

/-! ## The ports and the AddressSpace -/

/-- `InputPortRead()` (R60): the next byte zero-extended, or 0xFFFFFFFF at the end of the input. -/
def inputRead (s : State) : Word × State :=
  match s.input with
  | [] => (0xFFFFFFFF#32, s)
  | b :: rest => (b.setWidth 32, { s with input := rest })

/-- `OutputPortWrite(v)` (R61): appends bits 7:0. -/
def outputWrite (s : State) (v : Word) : State :=
  { s with output := s.output ++ [v.setWidth 8] }

/-- `MemRead(a, 4, force)` (R55): the input port first, then the Block. A read of the output port is no port operation
(R62). -/
def memRead (s : State) (a : Word) (force : Bool) : Except MemoryReason (Word × State) :=
  if a = inputPort then .ok (inputRead s)
  else
    match findBlock s.blocks a with
    | none => .error .badAddress
    | some b =>
      match Block.read b s.mem (a - b.start) force with
      | .error r => .error r
      | .ok w => .ok (w, s)

/-- `MemWrite(a, 4, v, force)` (R56): the output port first, then the Block. A write of the input port is no port
operation (R62). -/
def memWrite (s : State) (a v : Word) (force : Bool) : Except MemoryReason State :=
  if a = outputPort then .ok (outputWrite s v)
  else
    match findBlock s.blocks a with
    | none => .error .badAddress
    | some b =>
      match Block.write b s.mem (a - b.start) v force with
      | .error r => .error r
      | .ok m => .ok { s with mem := m }

/-- A read inside an instruction: the rest of it runs on the word and the state after the read, or the trap ends it. -/
def withRead (s : State) (a : Word) (force : Bool) (k : Word → State → Out) : Out :=
  match memRead s a force with
  | .error r => raise (.memory r) s
  | .ok (w, s') => k w s'

/-- A normal write, the last act of a store. -/
def finishWrite (s : State) (a v : Word) : Out :=
  match memWrite s a v false with
  | .error r => raise (.memory r) s
  | .ok s' => .next s'

/-- The last act of an instruction with a register destination (R22). -/
def finishReg (s : State) (rd : RegNum) (v : Word) : Out := .next (s.setReg rd v)

/-- `SubWordStore(WA, mask, v)` (R262): forced read, merge, normal write. -/
def subWordStore (s : State) (wa mask v : Word) : Out :=
  withRead s wa true fun w s' => finishWrite s' wa ((w &&& ~~~mask) ||| v)

/-! ## The latch and the parts of the step -/

/-- `branch(t)` (R220): the latch is set, PC is not. -/
def branchTo (s : State) (t : Word) : State := { s with pcNext := t, jumped := true }

/-- `branch(t)` if the condition holds; a branch not taken leaves the latch alone (R220). -/
def branchIf (c : Bool) (s : State) (t : Word) : State := if c then branchTo s t else s

/-- `Upper(p)` (R25), on unsigned values. DEDUCED, unsafe at p = 0xFFFFFFFC (log 7): `p + 4` is a natural number and
does not wrap. -/
def pcUpper (s : State) (p : Word) : Bool :=
  match s.params.pcLimitMode with
  | .inclusive => decide (p.toNat ≤ s.pcMax.toNat)
  | .strict => decide (p.toNat + 4 ≤ s.pcMax.toNat)

/-- `PcValid(p)` (R25). -/
def pcValid (s : State) (p : Word) : Bool :=
  p.toNat % 4 == 0 && decide (s.pcMin.toNat ≤ p.toNat) && pcUpper s p

/-- Steps 1 and 2: validate PC (R110) and fetch the word there with a normal read (R111). -/
def fetch (s : State) : Except MemoryReason (Word × State) :=
  if pcValid s s.pc then memRead s s.pc false else .error .badPC

/-- Step 3 (R112): PC becomes the pending target or PC + 4, and the latch is consumed. -/
def advance (s : State) : State :=
  { s with pc := if s.jumped then s.pcNext else s.pc + 4#32, jumped := false }

/-- Step 6 (R116): after a trap-free execution, PC = 0 ends the run with the low byte of register 2. -/
def terminate : Out → Out
  | .next t => if t.pc = 0#32 then .fault (.exit ((t.reg 2#5).setWidth 8) t) else .next t
  | .fault r => .fault r
  | .refused r => .refused r

/-- The exit status the host gives an ended run (R281); `Undefined` has none (R276). -/
def exitStatus (p : Params) : Fault → Option Byte
  | .exit status _ => some status
  | .trap .overflow _ => some p.exitCodes.ovf
  | .trap (.memory _) _ => some p.exitCodes.mem
  | .trap (.invalid _) _ => some p.exitCodes.inv
  | .undefined _ _ => none

end Sys2Proof.Machine
end

