-- ==== Sys2Proof/Machine/Operands.lean ====
section
/-! DEFINITION. Every operand form: the immediates (R93 of 30_encoding.md), shift amounts, branch and jump targets and
the link value (R221 to R223 of 43_control.md), effective addresses and lanes (R250, R251 of 44_loadstore.md). -/

namespace Sys2Proof.Machine

/-- `simm = sext_32(imm)` (R92). -/
def simm (imm : Imm) : Word := imm.signExtend 32

/-- `zext_32(imm)` (R93). -/
def zimm (imm : Imm) : Word := imm.setWidth 32

/-- The upper immediate `imm << 16` (R93). -/
def upperImm (imm : Imm) : Word := imm.setWidth 32 <<< 16

/-- The variable shift amount `RS & 31` (R93). -/
def varAmount (w : Word) : Nat := (w &&& 31#32).toNat

/-- `BTarget = PC + (simm << 2)` with the advanced PC (R221). -/
def relTarget (s : State) (imm : Imm) : Word := s.pc + (simm imm <<< 2)

/-- `JTarget = (PC & 0xF0000000) | (target << 2)` with the advanced PC (R222). -/
def regionTarget (s : State) (target : Target) : Word :=
  (s.pc &&& 0xF0000000#32) ||| (target.setWidth 32 <<< 2)

/-- The link value `PC + 4` with the advanced PC (R223). -/
def linkValue (s : State) : Word := s.pc + 4#32

/-- The effective address `A = RS + simm` modulo 2^32 (R250; D8). -/
def effAddr (s : State) (imm : Imm) (rs : RegNum) : Word := s.reg rs + simm imm

/-- `n = A mod 4`, the byte offset of an address within its word (R250). -/
def laneOf (a : Word) : Nat := a.toNat % 4

/-- `WA = A & 0xFFFFFFFC`, the address of the containing word (R250). -/
def wordAddr (a : Word) : Word := a &&& 0xFFFFFFFC#32

/-- `HalfAt(w, n)`, for `n` 0 or 2 (R251). -/
def halfAt (w : Word) (n : Nat) : BitVec 16 := (w >>> (8 * (2 - n))).setWidth 16

/-- The merge of LWL (R258): the bytes from offset `n` to the word's end, above the low `8n` bits of the old RT. -/
def mergeLeft (w old : Word) (n : Nat) : Word :=
  (w <<< (8 * n)) ||| (old &&& BitVec.ofNat 32 (2 ^ (8 * n) - 1))

/-- The merge of LWR (R259): the bytes from the word's start to offset `n`, below the high bits of the old RT. -/
def mergeRight (w old : Word) (n : Nat) : Word :=
  (w >>> (8 * (3 - n))) ||| (old &&& ~~~(0xFFFFFFFF#32 >>> (8 * (3 - n))))

end Sys2Proof.Machine
end

