-- ==== Sys2Proof/Machine/Flags.lean ====
section
/-! DEFINITION. The core has no flags (R31 of 10_state.md): overflow is trapped and comparisons write a register. Here
stand the overflow predicates (R180 of 42_alu.md) and the value a comparison writes (R188, R189). -/

namespace Sys2Proof.Machine

/-- `AddOverflow(a, b, r)` (R180). -/
def addOverflow (a b r : Word) : Bool := a.msb == b.msb && r.msb != a.msb

/-- `SubOverflow(a, b, r)` (R180). -/
def subOverflow (a b r : Word) : Bool := a.msb != b.msb && r.msb != a.msb

/-- The 1 or 0 that a set-on-less-than writes (R188, R189). -/
def flagWord (c : Bool) : Word := if c then 1#32 else 0#32

/-- `a <s b` (R11). -/
def ltSigned (a b : Word) : Bool := decide (a.toInt < b.toInt)

/-- `a <u b` (R11). -/
def ltUnsigned (a b : Word) : Bool := decide (a.toNat < b.toNat)

end Sys2Proof.Machine
end

