-- ==== Sys2Proof/Machine/Alu.lean ====
section
/-! DEFINITION. The integer ALU instructions (42_alu.md, R181 to R197). -/

namespace Sys2Proof.Machine

/-- Addition with the Overflow trap, before anything is written (R180, R181, R190). -/
def addTrapping (s : State) (rd : RegNum) (a b : Word) : Out :=
  if addOverflow a b (a + b) then raise .overflow s else finishReg s rd (a + b)

/-- Subtraction with the Overflow trap (R180, R183). -/
def subTrapping (s : State) (rd : RegNum) (a b : Word) : Out :=
  if subOverflow a b (a - b) then raise .overflow s else finishReg s rd (a - b)

/-- ADD (R181). -/
def execAdd (rd rs rt : RegNum) (s : State) : Out := addTrapping s rd (s.reg rs) (s.reg rt)

/-- ADDU (R182). -/
def execAddu (rd rs rt : RegNum) (s : State) : Out := finishReg s rd (s.reg rs + s.reg rt)

/-- SUB (R183). -/
def execSub (rd rs rt : RegNum) (s : State) : Out := subTrapping s rd (s.reg rs) (s.reg rt)

/-- SUBU (R184). -/
def execSubu (rd rs rt : RegNum) (s : State) : Out := finishReg s rd (s.reg rs - s.reg rt)

/-- AND (R185). -/
def execAnd (rd rs rt : RegNum) (s : State) : Out := finishReg s rd (s.reg rs &&& s.reg rt)

/-- OR (R186). -/
def execOr (rd rs rt : RegNum) (s : State) : Out := finishReg s rd (s.reg rs ||| s.reg rt)

/-- XOR (R187). -/
def execXor (rd rs rt : RegNum) (s : State) : Out := finishReg s rd (s.reg rs ^^^ s.reg rt)

/-- SLT (R188). -/
def execSlt (rd rs rt : RegNum) (s : State) : Out :=
  finishReg s rd (flagWord (ltSigned (s.reg rs) (s.reg rt)))

/-- SLTU (R189). -/
def execSltu (rd rs rt : RegNum) (s : State) : Out :=
  finishReg s rd (flagWord (ltUnsigned (s.reg rs) (s.reg rt)))

/-- ADDI (R190; the destination is `rt`, D9). -/
def execAddi (rt rs : RegNum) (imm : Imm) (s : State) : Out := addTrapping s rt (s.reg rs) (simm imm)

/-- ADDIU (R191; D9): the immediate is sign-extended, and nothing traps. -/
def execAddiu (rt rs : RegNum) (imm : Imm) (s : State) : Out := finishReg s rt (s.reg rs + simm imm)

/-- SLTI (R192; D9). -/
def execSlti (rt rs : RegNum) (imm : Imm) (s : State) : Out :=
  finishReg s rt (flagWord (ltSigned (s.reg rs) (simm imm)))

/-- SLTIU (R193; D9): the immediate is sign-extended, then compared as unsigned. -/
def execSltiu (rt rs : RegNum) (imm : Imm) (s : State) : Out :=
  finishReg s rt (flagWord (ltUnsigned (s.reg rs) (simm imm)))

/-- ANDI (R194). -/
def execAndi (rt rs : RegNum) (imm : Imm) (s : State) : Out := finishReg s rt (s.reg rs &&& zimm imm)

/-- ORI (R195). -/
def execOri (rt rs : RegNum) (imm : Imm) (s : State) : Out := finishReg s rt (s.reg rs ||| zimm imm)

/-- XORI (R196). -/
def execXori (rt rs : RegNum) (imm : Imm) (s : State) : Out := finishReg s rt (s.reg rs ^^^ zimm imm)

/-- LUI (R197). -/
def execLui (rt : RegNum) (imm : Imm) (s : State) : Out := finishReg s rt (upperImm imm)

end Sys2Proof.Machine
end

