-- ==== Sys2Proof/Machine/Control.lean ====
section
/-! DEFINITION. Control transfers (43_control.md, R220 to R239) and the policy for one in a delay slot. In every meaning PC
is the already-advanced value (R112), and every operand is read before the link or the latch is written (R92). -/

namespace Sys2Proof.Machine

/-- The twelve control-transfer instructions (R16). -/
def isControlTransfer : Instr → Bool
  | .sll _ _ _ => false
  | .srl _ _ _ => false
  | .sra _ _ _ => false
  | .sllv _ _ _ => false
  | .srlv _ _ _ => false
  | .srav _ _ _ => false
  | .jr _ => true
  | .jalr _ _ => true
  | .mfhi _ => false
  | .mthi _ => false
  | .mflo _ => false
  | .mtlo _ => false
  | .mult _ _ => false
  | .multu _ _ => false
  | .div _ _ => false
  | .divu _ _ => false
  | .add _ _ _ => false
  | .addu _ _ _ => false
  | .sub _ _ _ => false
  | .subu _ _ _ => false
  | .and _ _ _ => false
  | .or _ _ _ => false
  | .xor _ _ _ => false
  | .slt _ _ _ => false
  | .sltu _ _ _ => false
  | .bltz _ _ => true
  | .bgez _ _ => true
  | .bltzal _ _ => true
  | .bgezal _ _ => true
  | .j _ => true
  | .jal _ => true
  | .beq _ _ _ => true
  | .bne _ _ _ => true
  | .blez _ _ => true
  | .bgtz _ _ => true
  | .addi _ _ _ => false
  | .addiu _ _ _ => false
  | .slti _ _ _ => false
  | .sltiu _ _ _ => false
  | .andi _ _ _ => false
  | .ori _ _ _ => false
  | .xori _ _ _ => false
  | .lui _ _ => false
  | .lb _ _ _ => false
  | .lh _ _ _ => false
  | .lwl _ _ _ => false
  | .lw _ _ _ => false
  | .lbu _ _ _ => false
  | .lhu _ _ _ => false
  | .lwr _ _ _ => false
  | .sb _ _ _ => false
  | .sh _ _ _ => false
  | .sw _ _ _ => false

/-- Whether Invalid(DelaySlotBranch) is raised (R238): a control transfer, taken or not, in a step that began with the
latch set, under `DELAY_SLOT_BRANCH = Trap`. Under `Latch` it runs by its own rule (R239). -/
def delaySlotTraps (p : Params) (inSlot : Bool) (i : Instr) : Bool :=
  inSlot && isControlTransfer i && p.delaySlotBranch == .trap

/-- The state after a link write to register 31 or `rd` (R223). -/
def linkTo (s : State) (rd : RegNum) : State := s.setReg rd (linkValue s)

/-- JR (R225). -/
def execJr (rs : RegNum) (s : State) : Out := .next (branchTo s (s.reg rs))

/-- JALR (R226): the target is the old RS, also when `rd = rs`. -/
def execJalr (rd rs : RegNum) (s : State) : Out := .next (branchTo (linkTo s rd) (s.reg rs))

/-- BLTZ (R227). -/
def execBltz (rs : RegNum) (imm : Imm) (s : State) : Out :=
  .next (branchIf (decide ((s.reg rs).toInt < 0)) s (relTarget s imm))

/-- BGEZ (R228). -/
def execBgez (rs : RegNum) (imm : Imm) (s : State) : Out :=
  .next (branchIf (decide (0 ≤ (s.reg rs).toInt)) s (relTarget s imm))

/-- BLTZAL (R229): the link is written whether taken or not, and the old RS is tested. -/
def execBltzal (rs : RegNum) (imm : Imm) (s : State) : Out :=
  .next (branchIf (decide ((s.reg rs).toInt < 0)) (linkTo s 31#5) (relTarget s imm))

/-- BGEZAL (R230): the link is written whether taken or not, and the old RS is tested. -/
def execBgezal (rs : RegNum) (imm : Imm) (s : State) : Out :=
  .next (branchIf (decide (0 ≤ (s.reg rs).toInt)) (linkTo s 31#5) (relTarget s imm))

/-- J (R231). -/
def execJ (target : Target) (s : State) : Out := .next (branchTo s (regionTarget s target))

/-- JAL (R232). -/
def execJal (target : Target) (s : State) : Out :=
  .next (branchTo (linkTo s 31#5) (regionTarget s target))

/-- BEQ (R233). -/
def execBeq (rs rt : RegNum) (imm : Imm) (s : State) : Out :=
  .next (branchIf (s.reg rs == s.reg rt) s (relTarget s imm))

/-- BNE (R234). -/
def execBne (rs rt : RegNum) (imm : Imm) (s : State) : Out :=
  .next (branchIf (s.reg rs != s.reg rt) s (relTarget s imm))

/-- BLEZ (R235). -/
def execBlez (rs : RegNum) (imm : Imm) (s : State) : Out :=
  .next (branchIf (decide ((s.reg rs).toInt ≤ 0)) s (relTarget s imm))

/-- BGTZ (R236). -/
def execBgtz (rs : RegNum) (imm : Imm) (s : State) : Out :=
  .next (branchIf (decide (0 < (s.reg rs).toInt)) s (relTarget s imm))

end Sys2Proof.Machine
end

