-- ==== Sys2Proof/Machine/HiLo.lean ====
section
/-! DEFINITION. HI/LO moves, multiply and divide (41_hilo.md, R150 to R171). -/

namespace Sys2Proof.Machine

/-- The exact signed product as 64 bits (R160). -/
def productSigned (a b : Word) : BitVec 64 := BitVec.ofInt 64 (a.toInt * b.toInt)

/-- The exact unsigned product as 64 bits (R161). -/
def productUnsigned (a b : Word) : BitVec 64 := BitVec.ofNat 64 (a.toNat * b.toNat)

/-- `{HI, LO} <- p`: HI the bits 63:32, LO the bits 31:0 (R160, R161). -/
def setProduct (s : State) (p : BitVec 64) : State := s.setHiLo (p.extractLsb' 32 32) (p.extractLsb' 0 32)

/-- The signed quotient truncated toward zero (R170). -/
def quotSigned (a b : Word) : Int := a.toInt.tdiv b.toInt

/-- The remainder that goes with it: `signed(RS) - q * signed(RT)` (R170; D21). -/
def remSigned (a b : Word) : Int := a.toInt - quotSigned a b * b.toInt

/-- The one signed division whose quotient does not fit (R170). -/
def divOverflows (a b : Word) : Bool := a == 0x80000000#32 && b == 0xFFFFFFFF#32

/-- MFHI (R150). -/
def execMfhi (rd : RegNum) (s : State) : Out := finishReg s rd s.hi

/-- MTHI (R151). -/
def execMthi (rs : RegNum) (s : State) : Out := .next { s with hi := s.reg rs }

/-- MFLO (R152). -/
def execMflo (rd : RegNum) (s : State) : Out := finishReg s rd s.lo

/-- MTLO (R153). -/
def execMtlo (rs : RegNum) (s : State) : Out := .next { s with lo := s.reg rs }

/-- MULT (R160). -/
def execMult (rs rt : RegNum) (s : State) : Out :=
  .next (setProduct s (productSigned (s.reg rs) (s.reg rt)))

/-- MULTU (R161). -/
def execMultu (rs rt : RegNum) (s : State) : Out :=
  .next (setProduct s (productUnsigned (s.reg rs) (s.reg rt)))

/-- DIV (R170): nothing on a zero divisor; the overflow case by `DIV_OVERFLOW` (D12). -/
def execDiv (rs rt : RegNum) (s : State) : Out :=
  if s.reg rt = 0#32 then .next s
  else if divOverflows (s.reg rs) (s.reg rt) then
    match s.params.divOverflow with
    | .fault => raiseUndefined .divOverflow s
    | .wrap => .next (s.setHiLo 0x00000000#32 0x80000000#32)
  else
    .next (s.setHiLo (BitVec.ofInt 32 (remSigned (s.reg rs) (s.reg rt)))
      (BitVec.ofInt 32 (quotSigned (s.reg rs) (s.reg rt))))

/-- DIVU (R171): nothing on a zero divisor. -/
def execDivu (rs rt : RegNum) (s : State) : Out :=
  if s.reg rt = 0#32 then .next s
  else
    .next (s.setHiLo (BitVec.ofNat 32 ((s.reg rs).toNat % (s.reg rt).toNat))
      (BitVec.ofNat 32 ((s.reg rs).toNat / (s.reg rt).toNat)))

end Sys2Proof.Machine
end

