-- ==== Sys2Proof/Machine/LoadStore.lean ====
section
/-! DEFINITION. Loads and stores (44_loadstore.md, R250 to R263). The order inside one instruction is R252's: the
address, the alignment, the accesses, the destination register. -/

namespace Sys2Proof.Machine

/-- A load without an alignment rule: one normal word read at WA, then the register (R252). -/
def loadLane (s : State) (rt : RegNum) (a : Word) (value : Word → Word) : Out :=
  withRead s (wordAddr a) false fun w s' => finishReg s' rt (value w)

/-- The alignment check, before any access (R252). -/
def aligned (s : State) (a : Word) (size : Nat) (rest : Out) : Out :=
  if a.toNat % size = 0 then rest else raise (.memory .misaligned) s

/-- LB (R253). -/
def execLb (rt : RegNum) (imm : Imm) (rs : RegNum) (s : State) : Out :=
  let a := effAddr s imm rs
  loadLane s rt a fun w => (byteAt w (laneOf a)).signExtend 32

/-- LBU (R254). -/
def execLbu (rt : RegNum) (imm : Imm) (rs : RegNum) (s : State) : Out :=
  let a := effAddr s imm rs
  loadLane s rt a fun w => (byteAt w (laneOf a)).setWidth 32

/-- LH (R255). -/
def execLh (rt : RegNum) (imm : Imm) (rs : RegNum) (s : State) : Out :=
  let a := effAddr s imm rs
  aligned s a 2 (loadLane s rt a fun w => (halfAt w (laneOf a)).signExtend 32)

/-- LHU (R256). -/
def execLhu (rt : RegNum) (imm : Imm) (rs : RegNum) (s : State) : Out :=
  let a := effAddr s imm rs
  aligned s a 2 (loadLane s rt a fun w => (halfAt w (laneOf a)).setWidth 32)

/-- LW (R257). -/
def execLw (rt : RegNum) (imm : Imm) (rs : RegNum) (s : State) : Out :=
  let a := effAddr s imm rs
  aligned s a 4 (withRead s a false fun w s' => finishReg s' rt w)

/-- LWL (R258): RT is the value read at decode. -/
def execLwl (rt : RegNum) (imm : Imm) (rs : RegNum) (s : State) : Out :=
  let a := effAddr s imm rs
  loadLane s rt a fun w => mergeLeft w (s.reg rt) (laneOf a)

/-- LWR (R259): RT is the value read at decode. -/
def execLwr (rt : RegNum) (imm : Imm) (rs : RegNum) (s : State) : Out :=
  let a := effAddr s imm rs
  loadLane s rt a fun w => mergeRight w (s.reg rt) (laneOf a)

/-- SB (R260). -/
def execSb (rt : RegNum) (imm : Imm) (rs : RegNum) (s : State) : Out :=
  let a := effAddr s imm rs
  let p := 8 * (3 - laneOf a)
  subWordStore s (wordAddr a) (0xFF#32 <<< p) ((s.reg rt &&& 0xFF#32) <<< p)

/-- SH (R261). -/
def execSh (rt : RegNum) (imm : Imm) (rs : RegNum) (s : State) : Out :=
  let a := effAddr s imm rs
  let p := 8 * (2 - laneOf a)
  aligned s a 2 (subWordStore s (wordAddr a) (0xFFFF#32 <<< p) ((s.reg rt &&& 0xFFFF#32) <<< p))

/-- SW (R263). -/
def execSw (rt : RegNum) (imm : Imm) (rs : RegNum) (s : State) : Out :=
  let a := effAddr s imm rs
  aligned s a 4 (finishWrite s a (s.reg rt))

end Sys2Proof.Machine
end

