-- ==== Sys2Proof/Machine/Shift.lean ====
section
/-! DEFINITION. The shift instructions (40_shift.md, R130 to R135). -/

namespace Sys2Proof.Machine

/-- `a << n` (R12). -/
def shiftLeft (a : Word) (n : Nat) : Word := a <<< n

/-- `a >>u n` (R12). -/
def shiftRightLogical (a : Word) (n : Nat) : Word := a >>> n

/-- `a >>s n` (R12): copies of bit 31 enter, also by 0 (C10). -/
def shiftRightArith (a : Word) (n : Nat) : Word := a.sshiftRight n

/-- SLL (R130). -/
def execSll (rd rt : RegNum) (shamt : Shamt) (s : State) : Out :=
  finishReg s rd (shiftLeft (s.reg rt) shamt.toNat)

/-- SRL (R131). -/
def execSrl (rd rt : RegNum) (shamt : Shamt) (s : State) : Out :=
  finishReg s rd (shiftRightLogical (s.reg rt) shamt.toNat)

/-- SRA (R132). -/
def execSra (rd rt : RegNum) (shamt : Shamt) (s : State) : Out :=
  finishReg s rd (shiftRightArith (s.reg rt) shamt.toNat)

/-- SLLV (R133; the amount is masked to 5 bits, C9). -/
def execSllv (rd rt rs : RegNum) (s : State) : Out :=
  finishReg s rd (shiftLeft (s.reg rt) (varAmount (s.reg rs)))

/-- SRLV (R134). -/
def execSrlv (rd rt rs : RegNum) (s : State) : Out :=
  finishReg s rd (shiftRightLogical (s.reg rt) (varAmount (s.reg rs)))

/-- SRAV (R135). -/
def execSrav (rd rt rs : RegNum) (s : State) : Out :=
  finishReg s rd (shiftRightArith (s.reg rt) (varAmount (s.reg rs)))

end Sys2Proof.Machine
end

