-- ==== Sys2Proof/Machine/Loader.lean ====
section
/-! DEFINITION. The launch (R300, R310 to R312 of 70_reset_and_hazards.md): how a program, an input and the parameters
come into the machine before its first step. -/

namespace Sys2Proof.Machine

/-- The reset state of a launch before its image is loaded (R36). -/
def preLaunch (p : Params) (input : List Byte) : State :=
  { State.reset with input := input, params := p }

/-- The loader's writes (R310): each four bytes of the image are one word, written by a forced write into instruction
memory, from address `a` upward. -/
def loadImage (s : State) (a : Word) : List Byte → Except MemoryReason State
  | b0 :: b1 :: b2 :: b3 :: rest =>
    match memWrite s a (wordOfBytes b0 b1 b2 b3) true with
    | .error r => .error r
    | .ok s' => loadImage s' (a + 4#32) rest
  | _ => .ok s

/-- PCMax after an image of `n` bytes (R25, R310). -/
def pcMaxOf (n : Nat) : Word := imageBase + BitVec.ofNat 32 n

/-- The launch (R310, R311): refused for an image whose length is not a multiple of 4 or that is too long, else the
state in which the first step begins. No write of an image it admits traps. DESIGN CHOICE of the model, unsafe for a
claim about the reason (log 18): an image that is both is reported as ImageNotWordMultiple, for R310 names the two
reasons and not which of them is reported. -/
def launch (p : Params) (image input : List Byte) : Out :=
  if image.length % 4 ≠ 0 then .refused .imageNotWordMultiple
  else if maxImageLength < image.length then .refused .imageTooLarge
  else
    match loadImage (preLaunch p input) imageBase image with
    | .error r => raise (.memory r) (preLaunch p input)
    | .ok s => .next { s with pcMax := pcMaxOf image.length }

/-- One instruction word placed where the next fetch reads, as a launch would have placed it: the word in storage,
and PCMax raised past it where it lies below. -/
def placeProgramWord (s : State) (w : Word) : State :=
  { s with
    mem := Memory.setWord s.mem s.pc.toNat w
    pcMax := if s.pc.toNat + 4 ≤ s.pcMax.toNat then s.pcMax else s.pc + 4#32 }

end Sys2Proof.Machine
end

