-- ==== Sys2Proof/Machine/Step.lean ====
section
/-! DEFINITION. The step (R110 to R117 of 30_encoding.md) and the host's way of placing one instruction. -/

namespace Sys2Proof.Machine

/-- One step (R117): validate and fetch, advance, decode, the delay-slot policy, execute, terminate. A trap of the fetch
finds the state as the step began; one of decode, dispatch or execution finds the advanced state (R279). -/
def step (s : State) : Host.Outcome State Fault Refusal :=
  match fetch s with
  | .error r => raise (.memory r) s
  | .ok (w, s1) =>
    match decode s.params w with
    | .error r => raise (.invalid r) (advance s1)
    | .ok i =>
      if delaySlotTraps s.params s.jumped i then raise (.invalid .delaySlotBranch) (advance s1)
      else terminate (exec i (advance s1))

/-- The state with the word of spec/opcode_table.json's numbering placed where the next step fetches (log 3). -/
def State.withFetchWord (s : State) (nbits w : Nat) : State := placeProgramWord s (tableWord nbits w)

end Sys2Proof.Machine
end

