-- ==== Sys2Proof/Safety.lean ====
section
/-! DEFINITION. The terms the statements use: what stays the same between two states (frames), which words belong to an
opcode, the regions of the standard layout, and the invariant of a run. -/

namespace Sys2Proof.Machine

/-- The byte of storage at a global address. -/
def State.byte (s : State) (a : Nat) : Byte := Memory.getByte s.mem a

/-! ## Frames -/

/-- PC and the latch are unchanged. -/
def SameControl (s t : State) : Prop := t.pc = s.pc ∧ t.pcNext = s.pcNext ∧ t.jumped = s.jumped

/-- HI and LO are unchanged. -/
def SameHiLo (s t : State) : Prop := t.hi = s.hi ∧ t.lo = s.lo

/-- Every general register is unchanged. -/
def SameRegs (s t : State) : Prop := ∀ k, t.reg k = s.reg k

/-- Every general register but `r` is unchanged. -/
def SameRegsBut (s t : State) (r : RegNum) : Prop := ∀ k, k ≠ r → t.reg k = s.reg k

/-- Every byte of memory is unchanged. -/
def SameMem (s t : State) : Prop := ∀ a, t.byte a = s.byte a

/-- Every byte of memory is unchanged outside the `n` bytes from `a` upward. -/
def SameMemBut (s t : State) (a n : Nat) : Prop := ∀ b, b < a ∨ a + n ≤ b → t.byte b = s.byte b

/-- The input and the output are unchanged. -/
def SameIO (s t : State) : Prop := t.input = s.input ∧ t.output = s.output

/-- The fetch window, the Block descriptors and the launch parameters are unchanged. -/
def SameFixed (s t : State) : Prop :=
  t.pcMin = s.pcMin ∧ t.pcMax = s.pcMax ∧ t.blocks = s.blocks ∧ t.params = s.params

/-- What a write of `v` to register `r` leaves there: register 0 stays 0 (R22). -/
def written (r : RegNum) (v : Word) : Word := if r = 0#5 then 0#32 else v

/-- `t` is `s` with `v` written to register `r` and nothing else changed. -/
def WritesOnlyReg (s t : State) (r : RegNum) (v : Word) : Prop :=
  t.reg r = written r v ∧ SameRegsBut s t r ∧ SameControl s t ∧ SameHiLo s t ∧ SameMem s t ∧ SameIO s t ∧
    SameFixed s t

/-- `t` is `s` with HI and LO replaced and nothing else changed. -/
def WritesOnlyHiLo (s t : State) (hi lo : Word) : Prop :=
  t.hi = hi ∧ t.lo = lo ∧ SameRegs s t ∧ SameControl s t ∧ SameMem s t ∧ SameIO s t ∧ SameFixed s t

/-- The latch of `t` holds `target` if `taken`, and is that of `s` if not; PC is unchanged (R220). -/
def LatchAfter (s t : State) (taken : Prop) (target : Word) : Prop :=
  t.pc = s.pc ∧ (taken → t.jumped = true ∧ t.pcNext = target) ∧
    (¬taken → t.jumped = s.jumped ∧ t.pcNext = s.pcNext)

/-- `t` is `s` with the latch set to `target` if `taken`, and nothing else changed. -/
def MayLatch (s t : State) (taken : Prop) (target : Word) : Prop :=
  LatchAfter s t taken target ∧ SameRegs s t ∧ SameHiLo s t ∧ SameMem s t ∧ SameIO s t ∧ SameFixed s t

/-- `t` is `s` with `link` written to register `r`, the latch set to `target` if `taken`, and nothing else changed. -/
def LinksAndMayLatch (s t : State) (r : RegNum) (link : Word) (taken : Prop) (target : Word) : Prop :=
  LatchAfter s t taken target ∧ t.reg r = written r link ∧ SameRegsBut s t r ∧ SameHiLo s t ∧ SameMem s t ∧
    SameIO s t ∧ SameFixed s t

/-- `i` completes from `s`, writing `v` to register `r` and nothing else. -/
def SetsReg (i : Instr) (s : State) (r : RegNum) (v : Word) : Prop :=
  ∃ t, exec i s = .next t ∧ WritesOnlyReg s t r v

/-- `i` completes from `s`, writing HI and LO and nothing else. -/
def SetsHiLo (i : Instr) (s : State) (hi lo : Word) : Prop :=
  ∃ t, exec i s = .next t ∧ WritesOnlyHiLo s t hi lo

/-- `i` completes from `s` as a control transfer that links nothing. -/
def Transfers (i : Instr) (s : State) (taken : Prop) (target : Word) : Prop :=
  ∃ t, exec i s = .next t ∧ MayLatch s t taken target

/-- `i` completes from `s` as a control transfer that writes the link value to register `r`. -/
def TransfersAndLinks (i : Instr) (s : State) (r : RegNum) (taken : Prop) (target : Word) : Prop :=
  ∃ t, exec i s = .next t ∧ LinksAndMayLatch s t r (s.pc + 4#32) taken target

/-- `i` completes from `s`, changing at most the `n` bytes of memory from `a` upward, which become `bytes`. -/
def StoresBytes (i : Instr) (s : State) (a : Nat) (bytes : List Byte) : Prop :=
  ∃ t, exec i s = .next t ∧ (∀ k, (h : k < bytes.length) → t.byte (a + k) = bytes[k]) ∧
    SameMemBut s t a bytes.length ∧ SameRegs s t ∧ SameControl s t ∧ SameHiLo s t ∧ SameIO s t ∧ SameFixed s t

/-- `i` ends the run from `s` with the trap `tr`, nothing changed. -/
def TrapsUnchanged (i : Instr) (s : State) (tr : Trap) : Prop := exec i s = .fault (.trap tr s)

/-- The register an instruction writes, if any (R23). -/
def destReg : Instr → Option RegNum
  | .sll rd _ _ => some rd
  | .srl rd _ _ => some rd
  | .sra rd _ _ => some rd
  | .sllv rd _ _ => some rd
  | .srlv rd _ _ => some rd
  | .srav rd _ _ => some rd
  | .jr _ => none
  | .jalr rd _ => some rd
  | .mfhi rd => some rd
  | .mthi _ => none
  | .mflo rd => some rd
  | .mtlo _ => none
  | .mult _ _ => none
  | .multu _ _ => none
  | .div _ _ => none
  | .divu _ _ => none
  | .add rd _ _ => some rd
  | .addu rd _ _ => some rd
  | .sub rd _ _ => some rd
  | .subu rd _ _ => some rd
  | .and rd _ _ => some rd
  | .or rd _ _ => some rd
  | .xor rd _ _ => some rd
  | .slt rd _ _ => some rd
  | .sltu rd _ _ => some rd
  | .bltz _ _ => none
  | .bgez _ _ => none
  | .bltzal _ _ => some 31#5
  | .bgezal _ _ => some 31#5
  | .j _ => none
  | .jal _ => some 31#5
  | .beq _ _ _ => none
  | .bne _ _ _ => none
  | .blez _ _ => none
  | .bgtz _ _ => none
  | .addi rt _ _ => some rt
  | .addiu rt _ _ => some rt
  | .slti rt _ _ => some rt
  | .sltiu rt _ _ => some rt
  | .andi rt _ _ => some rt
  | .ori rt _ _ => some rt
  | .xori rt _ _ => some rt
  | .lui rt _ => some rt
  | .lb rt _ _ => some rt
  | .lh rt _ _ => some rt
  | .lwl rt _ _ => some rt
  | .lw rt _ _ => some rt
  | .lbu rt _ _ => some rt
  | .lhu rt _ _ => some rt
  | .lwr rt _ _ => some rt
  | .sb _ _ _ => none
  | .sh _ _ _ => none
  | .sw _ _ _ => none

/-- The six instructions that may change HI or LO (R30). -/
def mayWriteHiLo : Instr → Bool
  | .sll _ _ _ => false
  | .srl _ _ _ => false
  | .sra _ _ _ => false
  | .sllv _ _ _ => false
  | .srlv _ _ _ => false
  | .srav _ _ _ => false
  | .jr _ => false
  | .jalr _ _ => false
  | .mfhi _ => false
  | .mthi _ => true
  | .mflo _ => false
  | .mtlo _ => true
  | .mult _ _ => true
  | .multu _ _ => true
  | .div _ _ => true
  | .divu _ _ => true
  | .add _ _ _ => false
  | .addu _ _ _ => false
  | .sub _ _ _ => false
  | .subu _ _ _ => false
  | .and _ _ _ => false
  | .or _ _ _ => false
  | .xor _ _ _ => false
  | .slt _ _ _ => false
  | .sltu _ _ _ => false
  | .bltz _ _ => false
  | .bgez _ _ => false
  | .bltzal _ _ => false
  | .bgezal _ _ => false
  | .j _ => false
  | .jal _ => false
  | .beq _ _ _ => false
  | .bne _ _ _ => false
  | .blez _ _ => false
  | .bgtz _ _ => false
  | .addi _ _ _ => false
  | .addiu _ _ _ => false
  | .slti _ _ _ => false
  | .sltiu _ _ _ => false
  | .andi _ _ _ => false
  | .ori _ _ _ => false
  | .xori _ _ _ => false
  | .lui _ _ => false
  | .lb _ _ _ => false
  | .lh _ _ _ => false
  | .lwl _ _ _ => false
  | .lw _ _ _ => false
  | .lbu _ _ _ => false
  | .lhu _ _ _ => false
  | .lwr _ _ _ => false
  | .sb _ _ _ => false
  | .sh _ _ _ => false
  | .sw _ _ _ => false

/-- The three stores (R263, R260, R261). -/
def isStore : Instr → Bool
  | .sll _ _ _ => false
  | .srl _ _ _ => false
  | .sra _ _ _ => false
  | .sllv _ _ _ => false
  | .srlv _ _ _ => false
  | .srav _ _ _ => false
  | .jr _ => false
  | .jalr _ _ => false
  | .mfhi _ => false
  | .mthi _ => false
  | .mflo _ => false
  | .mtlo _ => false
  | .mult _ _ => false
  | .multu _ _ => false
  | .div _ _ => false
  | .divu _ _ => false
  | .add _ _ _ => false
  | .addu _ _ _ => false
  | .sub _ _ _ => false
  | .subu _ _ _ => false
  | .and _ _ _ => false
  | .or _ _ _ => false
  | .xor _ _ _ => false
  | .slt _ _ _ => false
  | .sltu _ _ _ => false
  | .bltz _ _ => false
  | .bgez _ _ => false
  | .bltzal _ _ => false
  | .bgezal _ _ => false
  | .j _ => false
  | .jal _ => false
  | .beq _ _ _ => false
  | .bne _ _ _ => false
  | .blez _ _ => false
  | .bgtz _ _ => false
  | .addi _ _ _ => false
  | .addiu _ _ _ => false
  | .slti _ _ _ => false
  | .sltiu _ _ _ => false
  | .andi _ _ _ => false
  | .ori _ _ _ => false
  | .xori _ _ _ => false
  | .lui _ _ => false
  | .lb _ _ _ => false
  | .lh _ _ _ => false
  | .lwl _ _ _ => false
  | .lw _ _ _ => false
  | .lbu _ _ _ => false
  | .lhu _ _ _ => false
  | .lwr _ _ _ => false
  | .sb _ _ _ => true
  | .sh _ _ _ => true
  | .sw _ _ _ => true

/-- An exact integer result that a signed word holds (R180). -/
abbrev FitsWord (x : Int) : Prop := -2 ^ 31 ≤ x ∧ x < 2 ^ 31

/-- The word the input port answers: the next byte zero-extended, or all ones at the end of the input (R59, R60). -/
def portWord : List Byte → Word
  | [] => 0xFFFFFFFF#32
  | b :: _ => b.setWidth 32

/-- `i` completes from `s` after consuming one input byte (none at the end of the input), writing `v` to register `r`
and changing nothing else. -/
def ReadsInput (i : Instr) (s : State) (r : RegNum) (v : Word) : Prop :=
  ∃ t, exec i s = .next t ∧ t.reg r = written r v ∧ SameRegsBut s t r ∧ SameControl s t ∧ SameHiLo s t ∧
    SameMem s t ∧ t.input = s.input.tail ∧ t.output = s.output ∧ SameFixed s t

/-! ## Words of an opcode -/

/-- Every word of SPECIAL with this funct is the instruction `i w`, or Invalid(ReservedField) where `ok` fails. -/
def SpecialWords (funct : BitVec 6) (ok : Params → Word → Bool) (i : Word → Instr) : Prop :=
  ∀ p w, fieldOp w = 0x00#6 → fieldFunct w = funct →
    decode p w = if ok p w then .ok (i w) else .error .reservedField

/-- Every word of REGIMM with this sub-opcode is the instruction `i w`. -/
def RegimmWords (sub : RegNum) (i : Word → Instr) : Prop :=
  ∀ p w, fieldOp w = 0x01#6 → fieldRt w = sub → decode p w = .ok (i w)

/-- Every word with this primary opcode is the instruction `i w`, or Invalid(ReservedField) where `ok` fails. -/
def PrimaryWords (op : BitVec 6) (ok : Params → Word → Bool) (i : Word → Instr) : Prop :=
  ∀ p w, fieldOp w = op → decode p w = if ok p w then .ok (i w) else .error .reservedField

/-- No field is required to be zero. -/
def noReserved (_ : Params) (_ : Word) : Bool := true

/-- `shamt` is required to be zero (R98). -/
def shamtZero (_ : Params) (w : Word) : Bool := fieldShamt w == 0#5

/-! ## Regions of the standard layout (R52) -/

/-- An address of the sentinel word, of instruction memory or of data memory. -/
abbrev Backed (a : Nat) : Prop :=
  a < 4 ∨ (0x10000000 ≤ a ∧ a < 0x11000000) ∨ (0x20000000 ≤ a ∧ a < 0x24000000)

/-- An address of data memory. -/
abbrev InData (a : Nat) : Prop := 0x20000000 ≤ a ∧ a < 0x24000000

/-- An address of the sentinel word or of instruction memory, which are read-only. -/
abbrev InReadOnly (a : Nat) : Prop := a < 4 ∨ (0x10000000 ≤ a ∧ a < 0x11000000)

/-- An address of the input port's word. -/
abbrev InInputWord (a : Nat) : Prop := 0x30000000 ≤ a ∧ a < 0x30000004

/-! ## The invariant of a run -/

/-- Every listed byte of storage lies in a Block of the standard layout. -/
def storageBacked (m : List Host.Cell) : Prop := ∀ c ∈ m, Backed c.1

/-- What holds at reset and after every step: storage is canonical and lies in the Blocks, the sentinel word is zero, the
layout is the standard one (R52), the fetch window is the one a load gives (R24, R25; PCMin by D1, log 6), the parameters
are legal (R281; D18, log 11), and PC is not 0 (R116). -/
structure Inv (s : State) : Prop where
  memWf : Memory.wf s.mem = true
  backed : storageBacked s.mem
  sentinelZero : ∀ a, a < 4 → s.byte a = 0#8
  layout : s.blocks = standardLayout
  window : s.pcMin = 0x10000000#32 ∧ 0x10000000 ≤ s.pcMax.toNat ∧ s.pcMax.toNat ≤ 0x11000000
  legal : s.params.legal = true
  running : s.pc ≠ 0#32

end Sys2Proof.Machine
end

