-- ==== Sys2Proof/Certificates/Slice0/Obligations.lean ====
section
/-! DEFINITION. The statements about the model. Unless a docstring says otherwise each formalises the rules of spec/ it
names, for every state and every operand. In a statement about `exec`, `s` is the state a step hands to Execute, whose
PC is already advanced (R112). -/

open Sys2Proof Sys2Proof.Machine

/-! ## Reset and launch -/

/-- R36, with the spec's own decisions D1, D6 and D7 for PCMin, registers 1 to 31, HI, PCNext and `jumped` (log 4, 5,
6), for the empty image and input under the default parameters (the model's choice; log 3). -/
def Obligations.ResetHoldsTheValuesOfTheTable : Prop :=
  State.reset.pc = 0x10000000#32 ∧ State.reset.jumped = false ∧ State.reset.pcNext = 0#32 ∧
    (∀ k, State.reset.reg k = 0#32) ∧ State.reset.hi = 0#32 ∧ State.reset.lo = 0#32 ∧
    State.reset.pcMin = 0x10000000#32 ∧ State.reset.pcMax = 0x10000000#32 ∧
    State.reset.blocks = [⟨0x00000000#32, 0x00000004#32, true, false⟩, ⟨0x10000000#32, 0x01000000#32, true, false⟩,
      ⟨0x20000000#32, 0x04000000#32, false, false⟩] ∧
    (∀ a, State.reset.byte a = 0#8) ∧ State.reset.input = [] ∧ State.reset.output = [] ∧
    launch Params.default [] [] = .next State.reset

/-- R310, R311 and R36. The refusals are the spec's own decisions D4 and D5; that an image of both faults is reported
as ImageNotWordMultiple is the model's choice (log 18). Any other image is in instruction memory byte by byte, PCMax
is past it, everything else is as at reset, and the invariant of a run holds. The reset values of registers 1 to 31,
HI, PCNext, `jumped` and PCMin are the spec's own decisions D6, D7 and D1 (log 4, 5, 6), the input as a finite
sequence D19 (log 14). -/
def Obligations.LaunchLoadsTheImageOrRefuses : Prop :=
  ∀ (p : Params) (image input : List Byte),
    (image.length % 4 ≠ 0 → launch p image input = .refused .imageNotWordMultiple) ∧
    (image.length % 4 = 0 → 0x01000000 < image.length → launch p image input = .refused .imageTooLarge) ∧
    (image.length % 4 = 0 → image.length ≤ 0x01000000 → ∃ t, launch p image input = .next t ∧
      t.pcMax.toNat = 0x10000000 + image.length ∧
      (∀ k, (h : k < image.length) → t.byte (0x10000000 + k) = image[k]) ∧
      (∀ a, a < 0x10000000 ∨ 0x10000000 + image.length ≤ a → t.byte a = 0#8) ∧
      t.pc = 0x10000000#32 ∧ t.jumped = false ∧ t.pcNext = 0#32 ∧ (∀ k, t.reg k = 0#32) ∧ t.hi = 0#32 ∧
      t.lo = 0#32 ∧ t.pcMin = 0x10000000#32 ∧ t.blocks = standardLayout ∧ t.input = input ∧ t.output = [] ∧
      t.params = p ∧ (p.legal = true → Inv t))

/-! ## The step -/

/-- R112 with R110, R111, R113 to R117: from a valid PC in instruction memory whose word decodes, and where the
delay-slot policy lets it run, a step is the execution of that instruction in the advanced state, and ends the run if
PC is 0 after it. That a control transfer in a slot runs so under `Latch` is R238, the spec's own decision D3 (log 8). -/
def Obligations.StepRunsTheDecodedInstruction : Prop :=
  ∀ (s : State) (i : Instr), s.blocks = standardLayout → pcValid s s.pc = true →
    0x10000000 ≤ s.pc.toNat → s.pc.toNat < 0x11000000 →
    decode s.params (s.byte s.pc.toNat ++ s.byte (s.pc.toNat + 1) ++ s.byte (s.pc.toNat + 2) ++
      s.byte (s.pc.toNat + 3)) = .ok i →
    (s.jumped = true → isControlTransfer i = true → s.params.delaySlotBranch = .latch) →
    let s2 := { s with pc := if s.jumped then s.pcNext else s.pc + 4#32, jumped := false }
    step s = match exec i s2 with
      | .next t => if t.pc = 0#32 then .fault (.exit ((t.reg 2#5).setWidth 8) t) else .next t
      | .fault r => .fault r
      | .refused r => .refused r

/-- R110, R111 and R25 in both values of PC_LIMIT_MODE (the spec's own decisions D1, D2; log 6, 7): a PC that is no
multiple of 4 or lies outside the window ends the run as Memory(BadPC), and PC = 0x11000000, which a full image
admits, as Memory(BadAddress). That PC + 4 does not wrap in the Strict test, so that PC = 0xFFFFFFFC is BadPC too, is
the model's deduction (DEDUCED; log 7): R11 would make the sum 0, and R26 says that no wrap occurs in a valid run. The
state left, that at the start of the step, is R279, the spec's own decision D20 (log 17). -/
def Obligations.StepTrapsWhenTheFetchFails : Prop :=
  (∀ s : State, s.params.pcLimitMode = .inclusive →
    ¬(s.pc.toNat % 4 = 0 ∧ s.pcMin.toNat ≤ s.pc.toNat ∧ s.pc.toNat ≤ s.pcMax.toNat) →
    step s = .fault (.trap (.memory .badPC) s)) ∧
  (∀ s : State, s.params.pcLimitMode = .strict →
    ¬(s.pc.toNat % 4 = 0 ∧ s.pcMin.toNat ≤ s.pc.toNat ∧ s.pc.toNat + 4 ≤ s.pcMax.toNat) →
    step s = .fault (.trap (.memory .badPC) s)) ∧
  (∀ s : State, s.params.pcLimitMode = .inclusive → s.blocks = standardLayout → s.pcMin = 0x10000000#32 →
    s.pcMax = 0x11000000#32 → s.pc = 0x11000000#32 → step s = .fault (.trap (.memory .badAddress) s))

/-- R113 and R115: a fetched word that is no instruction ends the run as Invalid with the decoder's reason. The state
left, the advanced one, is R279, the spec's own decision D20 (log 17). -/
def Obligations.InvalidWordEndsTheRun : Prop :=
  ∀ (s s1 : State) (w : Word) (r : InvalidReason), fetch s = .ok (w, s1) → decode s.params w = .error r →
    step s = .fault (.trap (.invalid r)
      { s1 with pc := if s1.jumped then s1.pcNext else s1.pc + 4#32, jumped := false })

/-- R238 and R239, the spec's own decision D3 (log 8): a control transfer, taken or not, in a step that began with the
latch set ends the run under `Trap` before any effect, and under `Latch` runs with PC the pending target. The state
the trap leaves, the advanced one, is R279, the spec's own decision D20 (log 17). -/
def Obligations.TransferInDelaySlotTrapsOrRuns : Prop :=
  ∀ (s s1 : State) (w : Word) (i : Instr), fetch s = .ok (w, s1) → decode s.params w = .ok i →
    isControlTransfer i = true → s.jumped = true →
    (s.params.delaySlotBranch = .trap →
      step s = .fault (.trap (.invalid .delaySlotBranch) { s1 with pc := s1.pcNext, jumped := false })) ∧
    (s.params.delaySlotBranch = .latch →
      step s = terminate (exec i { s1 with pc := s1.pcNext, jumped := false }))

/-- R116 (partly [derived]): the run ends normally exactly through the delay slot of a transfer to 0, with the low byte of
register 2 as its status, taken after that instruction's effects. -/
def Obligations.ExitIsTheSlotOfATransferToZero : Prop :=
  (∀ (s : State) (st : Byte) (u : State), Inv s → step s = .fault (.exit st u) →
    s.jumped = true ∧ s.pcNext = 0#32 ∧ u.pc = 0#32 ∧ st = (u.reg 2#5).setWidth 8) ∧
  (∀ (s s1 : State) (w : Word) (i : Instr) (u : State), fetch s = .ok (w, s1) → decode s.params w = .ok i →
    isControlTransfer i = false → s.jumped = true → s.pcNext = 0#32 → exec i (advance s1) = .next u →
    step s = .fault (.exit ((u.reg 2#5).setWidth 8) u))

/-- R112, R220 and R224: a step that goes on leaves PC at the pending target or at PC + 4, and a target latched by it is
reached by the step after the next one, so exactly one delay slot runs. -/
def Obligations.PcFollowsTheLatch : Prop :=
  ∀ s t : State, step s = .next t →
    (t.pc = if s.jumped then s.pcNext else s.pc + 4#32) ∧
    ∀ u, step t = .next u → u.pc = if t.jumped then t.pcNext else t.pc + 4#32

/-- R114 and R26 (no instruction writes PC), R25 and R33 (the window and the descriptors are set once), R9 (the parameters
are launch inputs). -/
def Obligations.NoInstructionWritesPcOrTheFixedState : Prop :=
  ∀ (i : Instr) (s t : State), exec i s = .next t → t.pc = s.pc ∧ SameFixed s t

/-- R23 [derived]: a general register changes only if it is the instruction's destination. -/
def Obligations.RegistersChangeOnlyAtTheDestination : Prop :=
  ∀ (i : Instr) (s t : State), exec i s = .next t → ∀ k, destReg i ≠ some k → t.reg k = s.reg k

/-- R30: HI and LO change only on the six instructions, MTHI leaves LO, MTLO leaves HI, and a division by zero leaves both. -/
def Obligations.HiLoChangeOnlyByTheirInstructions : Prop :=
  (∀ (i : Instr) (s t : State), exec i s = .next t → mayWriteHiLo i = false → SameHiLo s t) ∧
  (∀ (s t : State) (rs : RegNum), exec (.mthi rs) s = .next t → t.lo = s.lo) ∧
  (∀ (s t : State) (rs : RegNum), exec (.mtlo rs) s = .next t → t.hi = s.hi) ∧
  (∀ (s t : State) (rs rt : RegNum), s.reg rt = 0#32 →
    exec (.div rs rt) s = .next t ∨ exec (.divu rs rt) s = .next t → SameHiLo s t)

/-- R65 [derived] with R61 and R67: an instruction that is no store changes no byte of memory and emits nothing. -/
def Obligations.OnlyStoresChangeMemory : Prop :=
  ∀ (i : Instr) (s t : State), exec i s = .next t → isStore i = false → SameMem s t ∧ t.output = s.output

/-- R118 (with the spec's own decision D18; log 2): no step is refused, so each continues or
ends the run by one of the three other outcomes. -/
def Obligations.EveryStepContinuesOrEndsTheRun : Prop :=
  ∀ s : State, (∃ t, step s = .next t) ∨ (∃ tr u, step s = .fault (.trap tr u)) ∨
    (∃ st u, step s = .fault (.exit st u)) ∨ (∃ u, step s = .fault (.undefined .divOverflow u))

/-! ## Register ports -/

/-- R21 for the read port and R22 for the write port: register 0 reads 0 and discards writes; any other register reads
as written, and no write reaches another register. -/
def Obligations.RegisterPortsKeepRegisterZero : Prop :=
  ∀ (s : State) (r k : RegNum) (v : Word),
    s.reg 0#5 = 0#32 ∧ s.setReg 0#5 v = s ∧ (r ≠ 0#5 → (s.setReg r v).reg r = v) ∧
      (k ≠ r → (s.setReg r v).reg k = s.reg k)

/-! ## Shifts -/

/-- R130, R131, R132: the words, and the shift by a constant as multiplication, division and floor division by a power
of two. That STRICT_RESERVED_FIELDS requires `rs` zero is R104, the spec's own decision D13 (log 9). -/
def Obligations.ConstantShiftsWriteRd : Prop :=
  SpecialWords 0x00#6 (fun p w => !p.strictReservedFields || fieldRs w == 0#5)
    (fun w => .sll (fieldRd w) (fieldRt w) (fieldShamt w)) ∧
  SpecialWords 0x02#6 (fun p w => !p.strictReservedFields || fieldRs w == 0#5)
    (fun w => .srl (fieldRd w) (fieldRt w) (fieldShamt w)) ∧
  SpecialWords 0x03#6 (fun p w => !p.strictReservedFields || fieldRs w == 0#5)
    (fun w => .sra (fieldRd w) (fieldRt w) (fieldShamt w)) ∧
  ∀ (s : State) (rd rt : RegNum) (sh : Shamt),
    SetsReg (.sll rd rt sh) s rd (BitVec.ofNat 32 ((s.reg rt).toNat * 2 ^ sh.toNat)) ∧
    SetsReg (.srl rd rt sh) s rd (BitVec.ofNat 32 ((s.reg rt).toNat / 2 ^ sh.toNat)) ∧
    SetsReg (.sra rd rt sh) s rd (BitVec.ofInt 32 ((s.reg rt).toInt / 2 ^ sh.toNat))

/-- R133, R134, R135: the words, and the shift by the low five bits of RS. -/
def Obligations.VariableShiftsUseFiveBits : Prop :=
  SpecialWords 0x04#6 shamtZero (fun w => .sllv (fieldRd w) (fieldRt w) (fieldRs w)) ∧
  SpecialWords 0x06#6 shamtZero (fun w => .srlv (fieldRd w) (fieldRt w) (fieldRs w)) ∧
  SpecialWords 0x07#6 shamtZero (fun w => .srav (fieldRd w) (fieldRt w) (fieldRs w)) ∧
  ∀ (s : State) (rd rt rs : RegNum),
    SetsReg (.sllv rd rt rs) s rd (BitVec.ofNat 32 ((s.reg rt).toNat * 2 ^ ((s.reg rs).toNat % 32))) ∧
    SetsReg (.srlv rd rt rs) s rd (BitVec.ofNat 32 ((s.reg rt).toNat / 2 ^ ((s.reg rs).toNat % 32))) ∧
    SetsReg (.srav rd rt rs) s rd (BitVec.ofInt 32 ((s.reg rt).toInt / 2 ^ ((s.reg rs).toNat % 32)))

/-! ## HI and LO -/

/-- R150 to R153: the words and the moves. That STRICT_RESERVED_FIELDS requires `rs` and `rt` of MFHI and MFLO zero is
R104, the spec's own decision D13 (log 9). -/
def Obligations.HiLoMoves : Prop :=
  SpecialWords 0x10#6 (fun p w => fieldShamt w == 0#5 &&
    (!p.strictReservedFields || (fieldRs w == 0#5 && fieldRt w == 0#5))) (fun w => .mfhi (fieldRd w)) ∧
  SpecialWords 0x11#6 (fun _ w => fieldShamt w == 0#5 && fieldRt w == 0#5 && fieldRd w == 0#5)
    (fun w => .mthi (fieldRs w)) ∧
  SpecialWords 0x12#6 (fun p w => fieldShamt w == 0#5 &&
    (!p.strictReservedFields || (fieldRs w == 0#5 && fieldRt w == 0#5))) (fun w => .mflo (fieldRd w)) ∧
  SpecialWords 0x13#6 (fun _ w => fieldShamt w == 0#5 && fieldRt w == 0#5 && fieldRd w == 0#5)
    (fun w => .mtlo (fieldRs w)) ∧
  ∀ (s : State) (r : RegNum),
    SetsReg (.mfhi r) s r s.hi ∧ SetsHiLo (.mthi r) s (s.reg r) s.lo ∧
    SetsReg (.mflo r) s r s.lo ∧ SetsHiLo (.mtlo r) s s.hi (s.reg r)

/-- R160 and R161: the words, and the exact 64-bit product in HI above LO. That STRICT_RESERVED_FIELDS requires `rd`
zero is R104, the spec's own decision D13 (log 9). -/
def Obligations.MultiplyLeavesTheExactProduct : Prop :=
  SpecialWords 0x18#6 (fun p w => fieldShamt w == 0#5 && (!p.strictReservedFields || fieldRd w == 0#5))
    (fun w => .mult (fieldRs w) (fieldRt w)) ∧
  SpecialWords 0x19#6 (fun p w => fieldShamt w == 0#5 && (!p.strictReservedFields || fieldRd w == 0#5))
    (fun w => .multu (fieldRs w) (fieldRt w)) ∧
  ∀ (s : State) (rs rt : RegNum),
    (∃ hi lo : Word, SetsHiLo (.mult rs rt) s hi lo ∧
      hi.toInt * 2 ^ 32 + lo.toNat = (s.reg rs).toInt * (s.reg rt).toInt) ∧
    (∃ hi lo : Word, SetsHiLo (.multu rs rt) s hi lo ∧
      hi.toNat * 2 ^ 32 + lo.toNat = (s.reg rs).toNat * (s.reg rt).toNat)

/-- R170 and R172, with the spec's own decisions D12 and D21 (log 10, 20): the words; nothing on a zero divisor; the
overflow case by DIV_OVERFLOW; otherwise the quotient truncated toward zero and the remainder that goes with it. That
STRICT_RESERVED_FIELDS requires `rd` zero is R104, the spec's own decision D13 (log 9). -/
def Obligations.DivideSigned : Prop :=
  SpecialWords 0x1A#6 (fun p w => fieldShamt w == 0#5 && (!p.strictReservedFields || fieldRd w == 0#5))
    (fun w => .div (fieldRs w) (fieldRt w)) ∧
  ∀ (s : State) (rs rt : RegNum),
    (s.reg rt = 0#32 → exec (.div rs rt) s = .next s) ∧
    (s.reg rs = 0x80000000#32 → s.reg rt = 0xFFFFFFFF#32 →
      (s.params.divOverflow = .fault → exec (.div rs rt) s = .fault (.undefined .divOverflow s)) ∧
      (s.params.divOverflow = .wrap → SetsHiLo (.div rs rt) s 0#32 0x80000000#32)) ∧
    (s.reg rt ≠ 0#32 → ¬(s.reg rs = 0x80000000#32 ∧ s.reg rt = 0xFFFFFFFF#32) →
      ∃ hi lo : Word, SetsHiLo (.div rs rt) s hi lo ∧ lo.toInt = (s.reg rs).toInt.tdiv (s.reg rt).toInt ∧
        (s.reg rs).toInt = lo.toInt * (s.reg rt).toInt + hi.toInt ∧ hi.toInt.natAbs < (s.reg rt).toInt.natAbs)

/-- R171: the words; nothing on a zero divisor; otherwise the unsigned quotient and remainder. That
STRICT_RESERVED_FIELDS requires `rd` zero is R104, the spec's own decision D13 (log 9). -/
def Obligations.DivideUnsigned : Prop :=
  SpecialWords 0x1B#6 (fun p w => fieldShamt w == 0#5 && (!p.strictReservedFields || fieldRd w == 0#5))
    (fun w => .divu (fieldRs w) (fieldRt w)) ∧
  ∀ (s : State) (rs rt : RegNum),
    (s.reg rt = 0#32 → exec (.divu rs rt) s = .next s) ∧
    (s.reg rt ≠ 0#32 → ∃ hi lo : Word, SetsHiLo (.divu rs rt) s hi lo ∧
      (s.reg rs).toNat = lo.toNat * (s.reg rt).toNat + hi.toNat ∧ hi.toNat < (s.reg rt).toNat)

/-! ## ALU -/

/-- R180, R181 and R183: the words; the exact signed sum or difference where a word holds it, else Overflow with
nothing written (R279, the spec's own decision D20; log 17), whatever the destination. -/
def Obligations.AddAndSubTrapExactlyOnOverflow : Prop :=
  SpecialWords 0x20#6 shamtZero (fun w => .add (fieldRd w) (fieldRs w) (fieldRt w)) ∧
  SpecialWords 0x22#6 shamtZero (fun w => .sub (fieldRd w) (fieldRs w) (fieldRt w)) ∧
  ∀ (s : State) (rd rs rt : RegNum),
    (FitsWord ((s.reg rs).toInt + (s.reg rt).toInt) →
      SetsReg (.add rd rs rt) s rd (BitVec.ofInt 32 ((s.reg rs).toInt + (s.reg rt).toInt))) ∧
    (¬FitsWord ((s.reg rs).toInt + (s.reg rt).toInt) → TrapsUnchanged (.add rd rs rt) s .overflow) ∧
    (FitsWord ((s.reg rs).toInt - (s.reg rt).toInt) →
      SetsReg (.sub rd rs rt) s rd (BitVec.ofInt 32 ((s.reg rs).toInt - (s.reg rt).toInt))) ∧
    (¬FitsWord ((s.reg rs).toInt - (s.reg rt).toInt) → TrapsUnchanged (.sub rd rs rt) s .overflow)

/-- R190 and R180, with the spec's own decisions D9 for the destination (log 15) and D20 for the state Overflow leaves
(R279; log 17). -/
def Obligations.AddiTrapsExactlyOnOverflow : Prop :=
  PrimaryWords 0x08#6 noReserved (fun w => .addi (fieldRt w) (fieldRs w) (fieldImm w)) ∧
  ∀ (s : State) (rt rs : RegNum) (imm : Imm),
    (FitsWord ((s.reg rs).toInt + imm.toInt) →
      SetsReg (.addi rt rs imm) s rt (BitVec.ofInt 32 ((s.reg rs).toInt + imm.toInt))) ∧
    (¬FitsWord ((s.reg rs).toInt + imm.toInt) → TrapsUnchanged (.addi rt rs imm) s .overflow)

/-- R182 and R184: the words, and the sum and difference modulo 2^32, never a trap. -/
def Obligations.AdduAndSubuWrap : Prop :=
  SpecialWords 0x21#6 shamtZero (fun w => .addu (fieldRd w) (fieldRs w) (fieldRt w)) ∧
  SpecialWords 0x23#6 shamtZero (fun w => .subu (fieldRd w) (fieldRs w) (fieldRt w)) ∧
  ∀ (s : State) (rd rs rt : RegNum),
    SetsReg (.addu rd rs rt) s rd (BitVec.ofNat 32 ((s.reg rs).toNat + (s.reg rt).toNat)) ∧
    SetsReg (.subu rd rs rt) s rd (BitVec.ofInt 32 ((s.reg rs).toNat - (s.reg rt).toNat : Int))

/-- R185, R186, R187: the words, and the result bit by bit. -/
def Obligations.RegisterLogicIsBitwise : Prop :=
  SpecialWords 0x24#6 shamtZero (fun w => .and (fieldRd w) (fieldRs w) (fieldRt w)) ∧
  SpecialWords 0x25#6 shamtZero (fun w => .or (fieldRd w) (fieldRs w) (fieldRt w)) ∧
  SpecialWords 0x26#6 shamtZero (fun w => .xor (fieldRd w) (fieldRs w) (fieldRt w)) ∧
  ∀ (s : State) (rd rs rt : RegNum),
    (∃ v, SetsReg (.and rd rs rt) s rd v ∧
      ∀ j < 32, v.getLsbD j = ((s.reg rs).getLsbD j && (s.reg rt).getLsbD j)) ∧
    (∃ v, SetsReg (.or rd rs rt) s rd v ∧
      ∀ j < 32, v.getLsbD j = ((s.reg rs).getLsbD j || (s.reg rt).getLsbD j)) ∧
    (∃ v, SetsReg (.xor rd rs rt) s rd v ∧
      ∀ j < 32, v.getLsbD j = Bool.xor ((s.reg rs).getLsbD j) ((s.reg rt).getLsbD j))

/-- R188 and R189: the words, and 1 or 0 by the signed and the unsigned comparison. -/
def Obligations.SetLessThanComparesRegisters : Prop :=
  SpecialWords 0x2A#6 shamtZero (fun w => .slt (fieldRd w) (fieldRs w) (fieldRt w)) ∧
  SpecialWords 0x2B#6 shamtZero (fun w => .sltu (fieldRd w) (fieldRs w) (fieldRt w)) ∧
  ∀ (s : State) (rd rs rt : RegNum),
    SetsReg (.slt rd rs rt) s rd (if (s.reg rs).toInt < (s.reg rt).toInt then 1#32 else 0#32) ∧
    SetsReg (.sltu rd rs rt) s rd (if (s.reg rs).toNat < (s.reg rt).toNat then 1#32 else 0#32)

/-- R191, R192 and R193, with the spec's own decision D9 for the destination (log 15): the immediate is sign-extended, and
SLTIU compares it as unsigned. -/
def Obligations.ImmediateAddAndCompare : Prop :=
  PrimaryWords 0x09#6 noReserved (fun w => .addiu (fieldRt w) (fieldRs w) (fieldImm w)) ∧
  PrimaryWords 0x0A#6 noReserved (fun w => .slti (fieldRt w) (fieldRs w) (fieldImm w)) ∧
  PrimaryWords 0x0B#6 noReserved (fun w => .sltiu (fieldRt w) (fieldRs w) (fieldImm w)) ∧
  ∀ (s : State) (rt rs : RegNum) (imm : Imm),
    SetsReg (.addiu rt rs imm) s rt (BitVec.ofInt 32 ((s.reg rs).toInt + imm.toInt)) ∧
    SetsReg (.slti rt rs imm) s rt (if (s.reg rs).toInt < imm.toInt then 1#32 else 0#32) ∧
    SetsReg (.sltiu rt rs imm) s rt (if (s.reg rs).toNat < (BitVec.ofInt 32 imm.toInt).toNat then 1#32 else 0#32)

/-- R194 to R197: the words; the immediate is zero-extended bit by bit, and LUI's is multiplied by 2^16. -/
def Obligations.ImmediateLogicAndUpper : Prop :=
  PrimaryWords 0x0C#6 noReserved (fun w => .andi (fieldRt w) (fieldRs w) (fieldImm w)) ∧
  PrimaryWords 0x0D#6 noReserved (fun w => .ori (fieldRt w) (fieldRs w) (fieldImm w)) ∧
  PrimaryWords 0x0E#6 noReserved (fun w => .xori (fieldRt w) (fieldRs w) (fieldImm w)) ∧
  PrimaryWords 0x0F#6 (fun _ w => fieldRs w == 0#5) (fun w => .lui (fieldRt w) (fieldImm w)) ∧
  ∀ (s : State) (rt rs : RegNum) (imm : Imm),
    (∃ v, SetsReg (.andi rt rs imm) s rt v ∧
      ∀ j < 32, v.getLsbD j = ((s.reg rs).getLsbD j && (decide (j < 16) && imm.getLsbD j))) ∧
    (∃ v, SetsReg (.ori rt rs imm) s rt v ∧
      ∀ j < 32, v.getLsbD j = ((s.reg rs).getLsbD j || (decide (j < 16) && imm.getLsbD j))) ∧
    (∃ v, SetsReg (.xori rt rs imm) s rt v ∧
      ∀ j < 32, v.getLsbD j = Bool.xor ((s.reg rs).getLsbD j) (decide (j < 16) && imm.getLsbD j)) ∧
    SetsReg (.lui rt imm) s rt (BitVec.ofNat 32 (imm.toNat * 2 ^ 16))

/-- R271: Overflow is raised only by ADD, SUB and ADDI, and only where a word does not hold the result. -/
def Obligations.OverflowOnlyByAddSubAddi : Prop :=
  ∀ (i : Instr) (s u : State), exec i s = .fault (.trap .overflow u) →
    (∃ rd rs rt, i = .add rd rs rt ∧ ¬FitsWord ((s.reg rs).toInt + (s.reg rt).toInt)) ∨
    (∃ rd rs rt, i = .sub rd rs rt ∧ ¬FitsWord ((s.reg rs).toInt - (s.reg rt).toInt)) ∨
    (∃ rt rs imm, i = .addi rt rs imm ∧ ¬FitsWord ((s.reg rs).toInt + imm.toInt))

/-! ## Control transfer -/

/-- R225 and R226 with R220 and R223: the words; the target is the old RS, also where JALR's `rd` is `rs`. That
STRICT_RESERVED_FIELDS requires JR's `rt` and `rd` zero is R104, the spec's own decision D13 (log 9). -/
def Obligations.RegisterJumpsLatchTheOldRs : Prop :=
  SpecialWords 0x08#6 (fun p w => fieldShamt w == 0#5 &&
    (!p.strictReservedFields || (fieldRt w == 0#5 && fieldRd w == 0#5))) (fun w => .jr (fieldRs w)) ∧
  SpecialWords 0x09#6 (fun _ w => fieldShamt w == 0#5 && fieldRt w == 0#5)
    (fun w => .jalr (fieldRd w) (fieldRs w)) ∧
  ∀ (s : State) (rd rs : RegNum),
    Transfers (.jr rs) s True (s.reg rs) ∧ TransfersAndLinks (.jalr rd rs) s rd True (s.reg rs)

/-- R231 and R222: the words, and the target from the top four bits of the advanced PC and the field. -/
def Obligations.JumpLatchesTheRegionTarget : Prop :=
  PrimaryWords 0x02#6 noReserved (fun w => .j (fieldTarget w)) ∧
  ∀ (s : State) (target : Target), Transfers (.j target) s True (s.pc.extractLsb' 28 4 ++ target ++ 0#2)

/-- R232 and R103, the spec's own decision D14 (log 9): the words under both values of JAL_FIELD_CHECK, and the jump with its
link. -/
def Obligations.JumpAndLinkLatchesAndLinks : Prop :=
  PrimaryWords 0x03#6 (fun p w => !p.jalFieldCheck || w.extractLsb' 6 15 == 0#15) (fun w => .jal (fieldTarget w)) ∧
  ∀ (s : State) (target : Target),
    TransfersAndLinks (.jal target) s 31#5 True (s.pc.extractLsb' 28 4 ++ target ++ 0#2)

/-- R227, R228, R235 and R236 with R220 and R221: the words, the signed test against zero, the target 4*simm beyond the delay
slot. -/
def Obligations.ZeroBranchesTestTheSign : Prop :=
  RegimmWords 0x00#5 (fun w => .bltz (fieldRs w) (fieldImm w)) ∧
  RegimmWords 0x01#5 (fun w => .bgez (fieldRs w) (fieldImm w)) ∧
  PrimaryWords 0x06#6 (fun _ w => fieldRt w == 0#5) (fun w => .blez (fieldRs w) (fieldImm w)) ∧
  PrimaryWords 0x07#6 (fun _ w => fieldRt w == 0#5) (fun w => .bgtz (fieldRs w) (fieldImm w)) ∧
  ∀ (s : State) (rs : RegNum) (imm : Imm),
    Transfers (.bltz rs imm) s ((s.reg rs).toInt < 0) (s.pc + BitVec.ofInt 32 (4 * imm.toInt)) ∧
    Transfers (.bgez rs imm) s (0 ≤ (s.reg rs).toInt) (s.pc + BitVec.ofInt 32 (4 * imm.toInt)) ∧
    Transfers (.blez rs imm) s ((s.reg rs).toInt ≤ 0) (s.pc + BitVec.ofInt 32 (4 * imm.toInt)) ∧
    Transfers (.bgtz rs imm) s (0 < (s.reg rs).toInt) (s.pc + BitVec.ofInt 32 (4 * imm.toInt))

/-- R229 and R230 with R220, R221 and R223: the words; register 31 is written whether taken or not, and the old RS is
tested, also where it is register 31. -/
def Obligations.LinkingBranchesLinkAlways : Prop :=
  RegimmWords 0x10#5 (fun w => .bltzal (fieldRs w) (fieldImm w)) ∧
  RegimmWords 0x11#5 (fun w => .bgezal (fieldRs w) (fieldImm w)) ∧
  ∀ (s : State) (rs : RegNum) (imm : Imm),
    TransfersAndLinks (.bltzal rs imm) s 31#5 ((s.reg rs).toInt < 0) (s.pc + BitVec.ofInt 32 (4 * imm.toInt)) ∧
    TransfersAndLinks (.bgezal rs imm) s 31#5 (0 ≤ (s.reg rs).toInt) (s.pc + BitVec.ofInt 32 (4 * imm.toInt))

/-- R233 and R234 with R220 and R221. -/
def Obligations.EqualityBranchesCompareRegisters : Prop :=
  PrimaryWords 0x04#6 noReserved (fun w => .beq (fieldRs w) (fieldRt w) (fieldImm w)) ∧
  PrimaryWords 0x05#6 noReserved (fun w => .bne (fieldRs w) (fieldRt w) (fieldImm w)) ∧
  ∀ (s : State) (rs rt : RegNum) (imm : Imm),
    Transfers (.beq rs rt imm) s (s.reg rs = s.reg rt) (s.pc + BitVec.ofInt 32 (4 * imm.toInt)) ∧
    Transfers (.bne rs rt imm) s (s.reg rs ≠ s.reg rt) (s.pc + BitVec.ofInt 32 (4 * imm.toInt))

/-! ## Loads -/

/-- R250, the spec's own decision D8 (log 15): the exact sum of base and signed offset, modulo 2^32. -/
def Obligations.EffectiveAddressWraps : Prop :=
  ∀ (s : State) (imm : Imm) (rs : RegNum),
    ((effAddr s imm rs).toNat : Int) = ((s.reg rs).toNat + imm.toInt) % 2 ^ 32

/-- R253 to R256 with R251 and R63: the words of the byte and halfword loads, and, where a Block holds the address, the
bytes there, most significant first. -/
def Obligations.ByteAndHalfLoadsReadTheirBytes : Prop :=
  PrimaryWords 0x20#6 noReserved (fun w => .lb (fieldRt w) (fieldImm w) (fieldRs w)) ∧
  PrimaryWords 0x24#6 noReserved (fun w => .lbu (fieldRt w) (fieldImm w) (fieldRs w)) ∧
  PrimaryWords 0x21#6 noReserved (fun w => .lh (fieldRt w) (fieldImm w) (fieldRs w)) ∧
  PrimaryWords 0x25#6 noReserved (fun w => .lhu (fieldRt w) (fieldImm w) (fieldRs w)) ∧
  ∀ (s : State) (rt : RegNum) (imm : Imm) (rs : RegNum), s.blocks = standardLayout →
    let a := (effAddr s imm rs).toNat
    Backed a →
      SetsReg (.lb rt imm rs) s rt ((s.byte a).signExtend 32) ∧
      SetsReg (.lbu rt imm rs) s rt ((s.byte a).setWidth 32) ∧
      (a % 2 = 0 →
        SetsReg (.lh rt imm rs) s rt ((s.byte a ++ s.byte (a + 1)).signExtend 32) ∧
        SetsReg (.lhu rt imm rs) s rt ((s.byte a ++ s.byte (a + 1)).setWidth 32))

/-- R257 with R63: the word, and, where a Block holds the aligned address, the four bytes there. -/
def Obligations.WordLoadReadsFourBytes : Prop :=
  PrimaryWords 0x23#6 noReserved (fun w => .lw (fieldRt w) (fieldImm w) (fieldRs w)) ∧
  ∀ (s : State) (rt : RegNum) (imm : Imm) (rs : RegNum), s.blocks = standardLayout →
    let a := (effAddr s imm rs).toNat
    Backed a → a % 4 = 0 →
      SetsReg (.lw rt imm rs) s rt (s.byte a ++ s.byte (a + 1) ++ s.byte (a + 2) ++ s.byte (a + 3))

/-- R258 and R259: the words; LWL takes the bytes from A to the end of its word above the low bytes of the old RT, LWR the
bytes from the start of the word to A below its high bytes. Byte `j` of a word counts from the most significant. -/
def Obligations.LoadWordLeftAndRightMerge : Prop :=
  PrimaryWords 0x22#6 noReserved (fun w => .lwl (fieldRt w) (fieldImm w) (fieldRs w)) ∧
  PrimaryWords 0x26#6 noReserved (fun w => .lwr (fieldRt w) (fieldImm w) (fieldRs w)) ∧
  ∀ (s : State) (rt : RegNum) (imm : Imm) (rs : RegNum), s.blocks = standardLayout →
    let a := (effAddr s imm rs).toNat
    Backed a →
      (∃ v, SetsReg (.lwl rt imm rs) s rt v ∧
        ∀ j < 4, byteAt v j = if j + a % 4 < 4 then s.byte (a + j) else byteAt (s.reg rt) j) ∧
      (∃ v, SetsReg (.lwr rt imm rs) s rt v ∧
        ∀ j < 4, byteAt v j = if 3 ≤ j + a % 4 then s.byte (a + j - 3) else byteAt (s.reg rt) j)

/-- R266(d) [derived; C4]: LWL at A and then LWR at A + 3 leave the unaligned word at A, whatever the register held. -/
def Obligations.LwlLwrPairLoadsTheUnalignedWord : Prop :=
  ∀ (s : State) (rt : RegNum) (imm imm' : Imm) (rs rs' : RegNum), s.blocks = standardLayout → rt ≠ 0#5 →
    let a := (effAddr s imm rs).toNat
    Backed a → Backed (a + 3) →
      ∃ t, exec (.lwl rt imm rs) s = .next t ∧
        ((effAddr t imm' rs').toNat = a + 3 → ∃ u, exec (.lwr rt imm' rs') t = .next u ∧
          u.reg rt = s.byte a ++ s.byte (a + 1) ++ s.byte (a + 2) ++ s.byte (a + 3))

/-- R264 [derived] with R252 and R62: a load outside the Blocks and the input port's word ends the run as
Memory(BadAddress), nothing changed (R279, the spec's own decision D20; log 17). That the output port's word is such a
place is R62, the spec's own decision D10 (log 13). -/
def Obligations.LoadsOutsideTheBlocksTrap : Prop :=
  ∀ (s : State) (rt : RegNum) (imm : Imm) (rs : RegNum), s.blocks = standardLayout →
    let a := (effAddr s imm rs).toNat
    ¬Backed a → ¬InInputWord a →
      TrapsUnchanged (.lb rt imm rs) s (.memory .badAddress) ∧
      TrapsUnchanged (.lbu rt imm rs) s (.memory .badAddress) ∧
      TrapsUnchanged (.lwl rt imm rs) s (.memory .badAddress) ∧
      TrapsUnchanged (.lwr rt imm rs) s (.memory .badAddress) ∧
      (a % 2 = 0 → TrapsUnchanged (.lh rt imm rs) s (.memory .badAddress) ∧
        TrapsUnchanged (.lhu rt imm rs) s (.memory .badAddress)) ∧
      (a % 4 = 0 → TrapsUnchanged (.lw rt imm rs) s (.memory .badAddress))

/-- R59, R60 and R264 (with the spec's own decisions D11 and D19; log 13, 14): a load from the input port's word consumes one
input byte and takes its lanes from the byte zero-extended, or from all ones at the end of the input. -/
def Obligations.LoadsFromTheInputPortConsumeOneByte : Prop :=
  ∀ (s : State) (rt : RegNum) (imm : Imm) (rs : RegNum),
    let a := (effAddr s imm rs).toNat
    let w := portWord s.input
    InInputWord a →
      ReadsInput (.lb rt imm rs) s rt ((byteAt w (a % 4)).signExtend 32) ∧
      ReadsInput (.lbu rt imm rs) s rt ((byteAt w (a % 4)).setWidth 32) ∧
      ReadsInput (.lwl rt imm rs) s rt (mergeLeft w (s.reg rt) (a % 4)) ∧
      ReadsInput (.lwr rt imm rs) s rt (mergeRight w (s.reg rt) (a % 4)) ∧
      (a % 2 = 0 → ReadsInput (.lh rt imm rs) s rt ((byteAt w (a % 4) ++ byteAt w (a % 4 + 1)).signExtend 32) ∧
        ReadsInput (.lhu rt imm rs) s rt ((byteAt w (a % 4) ++ byteAt w (a % 4 + 1)).setWidth 32)) ∧
      (a % 4 = 0 → ReadsInput (.lw rt imm rs) s rt w)

/-- R64 and R252: LH, LHU and SH at an odd address and LW and SW at one that is no multiple of 4 end the run as
Memory(Misaligned) before any access (the order by the spec's own decision D15, the state left by D20; log 16, 17). -/
def Obligations.MisalignedAccessesTrap : Prop :=
  ∀ (s : State) (rt : RegNum) (imm : Imm) (rs : RegNum),
    let a := (effAddr s imm rs).toNat
    (a % 2 ≠ 0 → TrapsUnchanged (.lh rt imm rs) s (.memory .misaligned) ∧
      TrapsUnchanged (.lhu rt imm rs) s (.memory .misaligned) ∧
      TrapsUnchanged (.sh rt imm rs) s (.memory .misaligned)) ∧
    (a % 4 ≠ 0 → TrapsUnchanged (.lw rt imm rs) s (.memory .misaligned) ∧
      TrapsUnchanged (.sw rt imm rs) s (.memory .misaligned))

/-! ## Stores -/

/-- R260 and R261 with R262 and R63: the words; in data memory SB stores the low byte and SH the low halfword of RT at A, and
every other byte of memory and everything else is unchanged. -/
def Obligations.SubWordStoresChangeOnlyTheirBytes : Prop :=
  PrimaryWords 0x28#6 noReserved (fun w => .sb (fieldRt w) (fieldImm w) (fieldRs w)) ∧
  PrimaryWords 0x29#6 noReserved (fun w => .sh (fieldRt w) (fieldImm w) (fieldRs w)) ∧
  ∀ (s : State) (rt : RegNum) (imm : Imm) (rs : RegNum), s.blocks = standardLayout → Memory.wf s.mem = true →
    let a := (effAddr s imm rs).toNat
    InData a →
      StoresBytes (.sb rt imm rs) s a [(s.reg rt).extractLsb' 0 8] ∧
      (a % 2 = 0 →
        StoresBytes (.sh rt imm rs) s a [(s.reg rt).extractLsb' 8 8, (s.reg rt).extractLsb' 0 8])

/-- R263 with R61 and R63: the word; SW stores RT's four bytes at an aligned address of data memory, most significant first,
and at the output port emits the low byte. -/
def Obligations.WordStoreWritesOrEmits : Prop :=
  PrimaryWords 0x2B#6 noReserved (fun w => .sw (fieldRt w) (fieldImm w) (fieldRs w)) ∧
  (∀ (s : State) (rt : RegNum) (imm : Imm) (rs : RegNum), s.blocks = standardLayout → Memory.wf s.mem = true →
    let a := (effAddr s imm rs).toNat
    InData a → a % 4 = 0 →
      StoresBytes (.sw rt imm rs) s a [(s.reg rt).extractLsb' 24 8, (s.reg rt).extractLsb' 16 8,
        (s.reg rt).extractLsb' 8 8, (s.reg rt).extractLsb' 0 8]) ∧
  (∀ (s : State) (rt : RegNum) (imm : Imm) (rs : RegNum), effAddr s imm rs = 0x30000004#32 →
    ∃ t, exec (.sw rt imm rs) s = .next t ∧ t.output = s.output ++ [(s.reg rt).extractLsb' 0 8] ∧
      t.input = s.input ∧ SameRegs s t ∧ SameControl s t ∧ SameHiLo s t ∧ SameMem s t ∧ SameFixed s t)

/-- R262, R263, R264 and R272 (C3): a store to the sentinel word or to instruction memory ends the run as
Memory(Permission), nothing changed (R279, the spec's own decision D20; log 17). -/
def Obligations.StoresToReadOnlyBlocksTrap : Prop :=
  ∀ (s : State) (rt : RegNum) (imm : Imm) (rs : RegNum), s.blocks = standardLayout →
    let a := (effAddr s imm rs).toNat
    InReadOnly a →
      TrapsUnchanged (.sb rt imm rs) s (.memory .permission) ∧
      (a % 2 = 0 → TrapsUnchanged (.sh rt imm rs) s (.memory .permission)) ∧
      (a % 4 = 0 → TrapsUnchanged (.sw rt imm rs) s (.memory .permission))

/-- R262, R263 and R264 with R62 (the spec's own decision D10; log 13): a store outside the Blocks ends the run as
Memory(BadAddress); a byte or halfword store at the output port emits nothing, and one at the input port's word has
consumed one input byte, which stays consumed (R279, the spec's own decision D20; log 17). -/
def Obligations.StoresOutsideTheBlocksTrap : Prop :=
  ∀ (s : State) (rt : RegNum) (imm : Imm) (rs : RegNum), s.blocks = standardLayout →
    let a := (effAddr s imm rs).toNat
    ¬Backed a →
      (¬InInputWord a → TrapsUnchanged (.sb rt imm rs) s (.memory .badAddress) ∧
        (a % 2 = 0 → TrapsUnchanged (.sh rt imm rs) s (.memory .badAddress))) ∧
      (InInputWord a →
        exec (.sb rt imm rs) s = .fault (.trap (.memory .badAddress) { s with input := s.input.tail }) ∧
        (a % 2 = 0 →
          exec (.sh rt imm rs) s = .fault (.trap (.memory .badAddress) { s with input := s.input.tail }))) ∧
      (a % 4 = 0 → a ≠ 0x30000004 → TrapsUnchanged (.sw rt imm rs) s (.memory .badAddress))

/-- R266(b) [derived]: what a store leaves in data memory, the load of its width at the same address returns. -/
def Obligations.LoadReturnsWhatTheStoreLeft : Prop :=
  ∀ (s : State) (rt r : RegNum) (imm : Imm) (rs : RegNum), s.blocks = standardLayout → Memory.wf s.mem = true →
    let a := (effAddr s imm rs).toNat
    InData a →
      (∃ t, exec (.sb rt imm rs) s = .next t ∧ SetsReg (.lbu r imm rs) t r (s.reg rt &&& 0xFF#32)) ∧
      (a % 2 = 0 → ∃ t, exec (.sh rt imm rs) s = .next t ∧ SetsReg (.lhu r imm rs) t r (s.reg rt &&& 0xFFFF#32)) ∧
      (a % 4 = 0 → ∃ t, exec (.sw rt imm rs) s = .next t ∧ SetsReg (.lw r imm rs) t r (s.reg rt))

/-! ## Blocks and the lookup -/

/-- R53 for the read and R54 with its table for the write: bounds before permission, and the permission unless the
access is forced. The row of both flags is the spec's own decision D17 (log 19). -/
def Obligations.BlockChecksBoundsThenPermission : Prop :=
  ∀ (b : Block) (m : List Host.Cell) (l v : Word) (force : Bool),
    (b.length.toNat ≤ l.toNat → Block.read b m l force = .error .badAddress ∧
      Block.write b m l v force = .error .badAddress) ∧
    (l.toNat < b.length.toNat →
      Block.read b m l force =
        (if force = false ∧ b.writeable = true ∧ b.readable = false then .error .permission
          else .ok (Memory.getWord m (b.start.toNat + 4 * (l.toNat / 4)))) ∧
      Block.write b m l v force =
        (if force = false ∧ b.readable = true then .error .permission
          else .ok (Memory.setWord m (b.start.toNat + 4 * (l.toNat / 4)) v)))

/-- R57: for any list of Blocks the lookup selects one whose start is the greatest not exceeding the address, and none
only if every start exceeds it; with none, or at an address above the selected Block's extent, an access that is no
port operation is out of bounds, forced or not; in the standard layout one is always selected. That a read of
0x30000004 and a write of 0x30000000 are no port operations is R62, the spec's own decision D10 (log 13). -/
def Obligations.LookupSelectsTheGreatestStart : Prop :=
  (∀ (bs : List Block) (a : Word),
    (∀ b, findBlock bs a = some b →
      b ∈ bs ∧ b.start.toNat ≤ a.toNat ∧ ∀ c ∈ bs, c.start.toNat ≤ a.toNat → c.start.toNat ≤ b.start.toNat) ∧
    (findBlock bs a = none ↔ ∀ c ∈ bs, a.toNat < c.start.toNat)) ∧
  (∀ (s : State) (a v : Word) (force : Bool),
    (findBlock s.blocks a = none ∨ ∃ b, findBlock s.blocks a = some b ∧ b.start.toNat + b.length.toNat ≤ a.toNat) →
      (a ≠ 0x30000000#32 → memRead s a force = .error .badAddress) ∧
      (a ≠ 0x30000004#32 → memWrite s a v force = .error .badAddress)) ∧
  ∀ a : Word, findBlock standardLayout a ≠ none

/-! ## Whole-machine rules -/

/-- The invariant of a run holds at reset, the launch of the empty image under the default parameters (the model's
choice; log 3). Its window has PCMin = 0x10000000 by the spec's own decision D1 (log 6), and its parameters are legal
because the default exit codes, by the spec's own decision D18 (log 11), are distinct. -/
def Obligations.ResetMeetsTheInvariant : Prop := Inv State.reset

/-- Every step that goes on keeps the invariant: canonical storage inside the Blocks (R33, R67), the sentinel word
zero and the layout and window as loaded (R25, R52; PCMin by the spec's own decision D1, log 6), legal parameters
(R281; D18, log 11), PC not 0 (R116). -/
def Obligations.EveryStepKeepsTheInvariant : Prop :=
  ∀ s t : State, Inv s → step s = .next t → Inv t

/-- R72 [derived]: no run from a state of the invariant, however long, changes a byte of instruction memory. -/
def Obligations.InstructionMemoryNeverChanges : Prop :=
  ∀ (n : Nat) (s t : State), Inv s → core.run n s = .next t →
    ∀ a, 0x10000000 ≤ a → a < 0x11000000 → t.byte a = s.byte a

/-- R279, the spec's own decision D20 (log 17): a trap leaves every register, HI, LO, memory, the output and the
pending target as the step found them; PC and the latch bit are those of the start if the fetch trapped and the
advanced ones otherwise; at most one input byte is consumed, and that only by SB or SH (R262, whose write at the input
port traps by R62, the spec's own decision D10; log 13). -/
def Obligations.TrapsArePrecise : Prop :=
  ∀ (s u : State) (tr : Trap), Inv s → step s = .fault (.trap tr u) →
    SameRegs s u ∧ SameHiLo s u ∧ SameMem s u ∧ u.output = s.output ∧ u.pcNext = s.pcNext ∧ SameFixed s u ∧
    ((∀ r, fetch s = .error r → u = s) ∧
      (∀ w s1, fetch s = .ok (w, s1) →
        (u.pc = if s.jumped then s.pcNext else s.pc + 4#32) ∧ u.jumped = false ∧
        (u.input = s.input ∨ (u.input = s.input.tail ∧
          ∃ rt imm rs, decode s.params w = .ok (.sb rt imm rs) ∨ decode s.params w = .ok (.sh rt imm rs)))))

/-- R67, R69 and R323, with the input as a finite sequence by the spec's own decision D19 (log 14): a step that goes
on consumes at most one input byte from the front and emits at most one output byte at the end. That only SW emits one
is R262 ("Output is therefore possible only with SW"), by R62, the spec's own decision D10 (log 13), under which SB
and SH at the output port trap. -/
def Obligations.StreamsMoveByAtMostOneByte : Prop :=
  ∀ (s t : State) (w : Word) (s1 : State), Inv s → fetch s = .ok (w, s1) → step s = .next t →
    (t.input = s.input ∨ t.input = s.input.tail) ∧
    (t.output = s.output ∨ ∃ rt imm rs, decode s.params w = .ok (.sw rt imm rs) ∧
      t.output = s.output ++ [(s.reg rt).extractLsb' 0 8])

/-! ## Encoding -/

/-- Decoding the word of any well-formed instruction gives it back, under every value of the parameters. -/
def Obligations.DecodeOfEncodeIsTheInstruction : Prop :=
  ∀ (p : Params) (i : Instr), i.wellFormed p = true → decode p (encode i) = .ok i

/-- What the decoder reads is well-formed, and its own word decodes to it: the fields an instruction ignores (R99) never
matter. -/
def Obligations.DecodedInstructionsAreWellFormed : Prop :=
  ∀ (p : Params) (w : Word) (i : Instr), decode p w = .ok i →
    i.wellFormed p = true ∧ decode p (encode i) = .ok i

/-- R100: a word in none of the maps R95, R96 and R97 is Invalid by the reason of its map. -/
def Obligations.WordsOutsideTheMapsAreInvalid : Prop :=
  ∀ (p : Params) (w : Word),
    ((fieldOp w).toNat ∉ [0x00, 0x01, 0x02, 0x03, 0x04, 0x05, 0x06, 0x07, 0x08, 0x09, 0x0A, 0x0B, 0x0C, 0x0D, 0x0E, 0x0F,
        0x20, 0x21, 0x22, 0x23, 0x24, 0x25, 0x26, 0x28, 0x29, 0x2B] ↔ decode p w = .error .unknownOpcode) ∧
    (fieldOp w = 0x00#6 → ((fieldFunct w).toNat ∉ [0x00, 0x02, 0x03, 0x04, 0x06, 0x07, 0x08, 0x09, 0x10, 0x11, 0x12, 0x13,
        0x18, 0x19, 0x1A, 0x1B, 0x20, 0x21, 0x22, 0x23, 0x24, 0x25, 0x26, 0x2A, 0x2B] ↔
      decode p w = .error .unknownFunct)) ∧
    (fieldOp w = 0x01#6 → ((fieldRt w).toNat ∉ [0x00, 0x01, 0x10, 0x11] ↔ decode p w = .error .unknownRegimm))

/-- Words written out from the encodings of the spec, one or more of each family (the examples of R130, R133, R150,
R160, R181, R190, R197, R225, R226, R227, R230, R231, R232, R253, R258, R263). That 0x0C000040 is
Invalid(ReservedField) holds under the default JAL_FIELD_CHECK = true only (R103, the spec's own decision D14; log 9). -/
def Obligations.SampleWordsDecode : Prop :=
  decode Params.default 0x00031100#32 = .ok (.sll 2#5 3#5 4#5) ∧
  decode Params.default 0x00831004#32 = .ok (.sllv 2#5 3#5 4#5) ∧
  decode Params.default 0x00001010#32 = .ok (.mfhi 2#5) ∧
  decode Params.default 0x00640018#32 = .ok (.mult 3#5 4#5) ∧
  decode Params.default 0x00641020#32 = .ok (.add 2#5 3#5 4#5) ∧
  decode Params.default 0x2062FFFF#32 = .ok (.addi 2#5 3#5 0xFFFF#16) ∧
  decode Params.default 0x3C028001#32 = .ok (.lui 2#5 0x8001#16) ∧
  decode Params.default 0x03E00008#32 = .ok (.jr 31#5) ∧
  decode Params.default 0x0080F809#32 = .ok (.jalr 31#5 4#5) ∧
  decode Params.default 0x04600003#32 = .ok (.bltz 3#5 3#16) ∧
  decode Params.default 0x04110003#32 = .ok (.bgezal 0#5 3#16) ∧
  decode Params.default 0x08000010#32 = .ok (.j 0x10#26) ∧
  decode Params.default 0x0C000040#32 = .error .reservedField ∧
  decode Params.default 0x81020001#32 = .ok (.lb 2#5 1#16 8#5) ∧
  decode Params.default 0x89020003#32 = .ok (.lwl 2#5 3#16 8#5) ∧
  decode Params.default 0xAD03FFFC#32 = .ok (.sw 3#5 0xFFFC#16 8#5)

/-! ## Exit status -/

/-- R281, the spec's own decision D18 (log 11): the status of each kind of end, and, for legal parameters, three different
ones for the three kinds of trap. -/
def Obligations.ExitStatusTellsTheKind : Prop :=
  ∀ (p : Params) (u : State) (st : Byte) (m : MemoryReason) (r : InvalidReason),
    exitStatus p (.exit st u) = some st ∧ exitStatus p (.trap .overflow u) = some p.exitCodes.ovf ∧
    exitStatus p (.trap (.memory m) u) = some p.exitCodes.mem ∧
    exitStatus p (.trap (.invalid r) u) = some p.exitCodes.inv ∧
    exitStatus p (.undefined .divOverflow u) = none ∧
    (p.legal = true → p.exitCodes.ovf ≠ p.exitCodes.mem ∧ p.exitCodes.ovf ≠ p.exitCodes.inv ∧
      p.exitCodes.mem ≠ p.exitCodes.inv) ∧
    exitStatus Params.default (.trap .overflow u) = some 0xF6#8 ∧
    exitStatus Params.default (.trap (.memory m) u) = some 0xF5#8 ∧
    exitStatus Params.default (.trap (.invalid r) u) = some 0xF4#8
end

