-- ==== Sys2Proof/Laws/Fields.lean ====
section
/-! SUPPORT. What a field of an encoded word reads as: placing a value and cutting it out again (R91, R92). -/

namespace Sys2Proof

theorem bitField_or (a b : Word) (lo n : Nat) : bitField (a ||| b) lo n = bitField a lo n ||| bitField b lo n := by
  simp [bitField, BitVec.extractLsb'_or]

theorem bitField_placeAt_self {n : Nat} (v : BitVec n) (lo : Nat) (h : lo + n ≤ 32) :
    bitField (placeAt lo v) lo n = v := by
  apply BitVec.eq_of_getLsbD_eq
  intro i hi
  have h1 : lo + i < 32 := by omega
  simp [bitField, placeAt, hi, h1]

theorem bitField_placeAt_above {m : Nat} (v : BitVec m) (lo lo' n : Nat) (h : lo' + m ≤ lo) :
    bitField (placeAt lo' v) lo n = 0#n := by
  apply BitVec.eq_of_getLsbD_eq
  intro i hi
  simp [bitField, placeAt, hi]
  intro _ _ _
  apply BitVec.getLsbD_of_ge
  omega

theorem bitField_placeAt_below {m : Nat} (v : BitVec m) (lo lo' n : Nat) (h : lo + n ≤ lo') :
    bitField (placeAt lo' v) lo n = 0#n := by
  apply BitVec.eq_of_getLsbD_eq
  intro i hi
  simp [bitField, placeAt, hi]
  omega

/-- A part of a placed value is that part of the value. -/
theorem bitField_placeAt_inside {m : Nat} (v : BitVec m) (lo n : Nat) (h : lo + n ≤ 32) :
    bitField (placeAt 0 v) lo n = v.extractLsb' lo n := by
  apply BitVec.eq_of_getLsbD_eq
  intro i hi
  simp [bitField, placeAt, hi]
  omega

section
variable (rs rt rd : RegNum) (sh : Shamt) (fn : BitVec 6)

@[simp] theorem fieldOp_encodeR : fieldOp (encodeR rs rt rd sh fn) = 0#6 := by
  simp [fieldOp, encodeR, bitField_or, bitField_placeAt_above]
@[simp] theorem fieldRs_encodeR : fieldRs (encodeR rs rt rd sh fn) = rs := by
  simp [fieldRs, encodeR, bitField_or, bitField_placeAt_above, bitField_placeAt_self]
@[simp] theorem fieldRt_encodeR : fieldRt (encodeR rs rt rd sh fn) = rt := by
  simp [fieldRt, encodeR, bitField_or, bitField_placeAt_above, bitField_placeAt_below, bitField_placeAt_self]
@[simp] theorem fieldRd_encodeR : fieldRd (encodeR rs rt rd sh fn) = rd := by
  simp [fieldRd, encodeR, bitField_or, bitField_placeAt_above, bitField_placeAt_below, bitField_placeAt_self]
@[simp] theorem fieldShamt_encodeR : fieldShamt (encodeR rs rt rd sh fn) = sh := by
  simp [fieldShamt, encodeR, bitField_or, bitField_placeAt_above, bitField_placeAt_below, bitField_placeAt_self]
@[simp] theorem fieldFunct_encodeR : fieldFunct (encodeR rs rt rd sh fn) = fn := by
  simp [fieldFunct, encodeR, bitField_or, bitField_placeAt_below, bitField_placeAt_self]
end

section
variable (op : BitVec 6) (rs rt : RegNum) (imm : Imm)

@[simp] theorem fieldOp_encodeI : fieldOp (encodeI op rs rt imm) = op := by
  simp [fieldOp, encodeI, bitField_or, bitField_placeAt_above, bitField_placeAt_self]
@[simp] theorem fieldRs_encodeI : fieldRs (encodeI op rs rt imm) = rs := by
  simp [fieldRs, encodeI, bitField_or, bitField_placeAt_above, bitField_placeAt_below, bitField_placeAt_self]
@[simp] theorem fieldRt_encodeI : fieldRt (encodeI op rs rt imm) = rt := by
  simp [fieldRt, encodeI, bitField_or, bitField_placeAt_above, bitField_placeAt_below, bitField_placeAt_self]
@[simp] theorem fieldImm_encodeI : fieldImm (encodeI op rs rt imm) = imm := by
  simp [fieldImm, encodeI, bitField_or, bitField_placeAt_below, bitField_placeAt_self]
end

section
variable (op : BitVec 6) (target : Target)

@[simp] theorem fieldOp_encodeJ : fieldOp (encodeJ op target) = op := by
  simp [fieldOp, encodeJ, bitField_or, bitField_placeAt_above, bitField_placeAt_self]
@[simp] theorem fieldTarget_encodeJ : fieldTarget (encodeJ op target) = target := by
  simp [fieldTarget, encodeJ, bitField_or, bitField_placeAt_below, bitField_placeAt_self]
/-- The reserved bits of JAL's word are bits 20:6 of its target (R103). -/
@[simp] theorem fieldJalReserved_encodeJ : fieldJalReserved (encodeJ op target) = target.extractLsb' 6 15 := by
  simp [fieldJalReserved, encodeJ, bitField_or, bitField_placeAt_below, bitField_placeAt_inside]
end

end Sys2Proof
end

