-- ==== Sys2Proof/Laws/State.lean ====
section
/-! SUPPORT. One lemma per field per update of the state, so that no proof unfolds a record update, and the laws of the
register ports (R21, R22). -/

namespace Sys2Proof.Machine

/-! ## setReg -/

@[simp] theorem setReg_pc (s : State) (r : RegNum) (v : Word) : (s.setReg r v).pc = s.pc := by
  unfold State.setReg; split <;> rfl
@[simp] theorem setReg_pcNext (s : State) (r : RegNum) (v : Word) : (s.setReg r v).pcNext = s.pcNext := by
  unfold State.setReg; split <;> rfl
@[simp] theorem setReg_jumped (s : State) (r : RegNum) (v : Word) : (s.setReg r v).jumped = s.jumped := by
  unfold State.setReg; split <;> rfl
@[simp] theorem setReg_hi (s : State) (r : RegNum) (v : Word) : (s.setReg r v).hi = s.hi := by
  unfold State.setReg; split <;> rfl
@[simp] theorem setReg_lo (s : State) (r : RegNum) (v : Word) : (s.setReg r v).lo = s.lo := by
  unfold State.setReg; split <;> rfl
@[simp] theorem setReg_pcMin (s : State) (r : RegNum) (v : Word) : (s.setReg r v).pcMin = s.pcMin := by
  unfold State.setReg; split <;> rfl
@[simp] theorem setReg_pcMax (s : State) (r : RegNum) (v : Word) : (s.setReg r v).pcMax = s.pcMax := by
  unfold State.setReg; split <;> rfl
@[simp] theorem setReg_blocks (s : State) (r : RegNum) (v : Word) : (s.setReg r v).blocks = s.blocks := by
  unfold State.setReg; split <;> rfl
@[simp] theorem setReg_mem (s : State) (r : RegNum) (v : Word) : (s.setReg r v).mem = s.mem := by
  unfold State.setReg; split <;> rfl
@[simp] theorem setReg_input (s : State) (r : RegNum) (v : Word) : (s.setReg r v).input = s.input := by
  unfold State.setReg; split <;> rfl
@[simp] theorem setReg_output (s : State) (r : RegNum) (v : Word) : (s.setReg r v).output = s.output := by
  unfold State.setReg; split <;> rfl
@[simp] theorem setReg_params (s : State) (r : RegNum) (v : Word) : (s.setReg r v).params = s.params := by
  unfold State.setReg; split <;> rfl

/-! ## setHiLo -/

@[simp] theorem setHiLo_pc (s : State) (hi lo : Word) : (s.setHiLo hi lo).pc = s.pc := rfl
@[simp] theorem setHiLo_pcNext (s : State) (hi lo : Word) : (s.setHiLo hi lo).pcNext = s.pcNext := rfl
@[simp] theorem setHiLo_jumped (s : State) (hi lo : Word) : (s.setHiLo hi lo).jumped = s.jumped := rfl
@[simp] theorem setHiLo_regs (s : State) (hi lo : Word) : (s.setHiLo hi lo).regs = s.regs := rfl
@[simp] theorem setHiLo_hi (s : State) (hi lo : Word) : (s.setHiLo hi lo).hi = hi := rfl
@[simp] theorem setHiLo_lo (s : State) (hi lo : Word) : (s.setHiLo hi lo).lo = lo := rfl
@[simp] theorem setHiLo_pcMin (s : State) (hi lo : Word) : (s.setHiLo hi lo).pcMin = s.pcMin := rfl
@[simp] theorem setHiLo_pcMax (s : State) (hi lo : Word) : (s.setHiLo hi lo).pcMax = s.pcMax := rfl
@[simp] theorem setHiLo_blocks (s : State) (hi lo : Word) : (s.setHiLo hi lo).blocks = s.blocks := rfl
@[simp] theorem setHiLo_mem (s : State) (hi lo : Word) : (s.setHiLo hi lo).mem = s.mem := rfl
@[simp] theorem setHiLo_input (s : State) (hi lo : Word) : (s.setHiLo hi lo).input = s.input := rfl
@[simp] theorem setHiLo_output (s : State) (hi lo : Word) : (s.setHiLo hi lo).output = s.output := rfl
@[simp] theorem setHiLo_params (s : State) (hi lo : Word) : (s.setHiLo hi lo).params = s.params := rfl

/-! ## branchTo -/

@[simp] theorem branchTo_pc (s : State) (t : Word) : (branchTo s t).pc = s.pc := rfl
@[simp] theorem branchTo_pcNext (s : State) (t : Word) : (branchTo s t).pcNext = t := rfl
@[simp] theorem branchTo_jumped (s : State) (t : Word) : (branchTo s t).jumped = true := rfl
@[simp] theorem branchTo_regs (s : State) (t : Word) : (branchTo s t).regs = s.regs := rfl
@[simp] theorem branchTo_hi (s : State) (t : Word) : (branchTo s t).hi = s.hi := rfl
@[simp] theorem branchTo_lo (s : State) (t : Word) : (branchTo s t).lo = s.lo := rfl
@[simp] theorem branchTo_pcMin (s : State) (t : Word) : (branchTo s t).pcMin = s.pcMin := rfl
@[simp] theorem branchTo_pcMax (s : State) (t : Word) : (branchTo s t).pcMax = s.pcMax := rfl
@[simp] theorem branchTo_blocks (s : State) (t : Word) : (branchTo s t).blocks = s.blocks := rfl
@[simp] theorem branchTo_mem (s : State) (t : Word) : (branchTo s t).mem = s.mem := rfl
@[simp] theorem branchTo_input (s : State) (t : Word) : (branchTo s t).input = s.input := rfl
@[simp] theorem branchTo_output (s : State) (t : Word) : (branchTo s t).output = s.output := rfl
@[simp] theorem branchTo_params (s : State) (t : Word) : (branchTo s t).params = s.params := rfl

/-! ## outputWrite -/

@[simp] theorem outputWrite_pc (s : State) (v : Word) : (outputWrite s v).pc = s.pc := rfl
@[simp] theorem outputWrite_pcNext (s : State) (v : Word) : (outputWrite s v).pcNext = s.pcNext := rfl
@[simp] theorem outputWrite_jumped (s : State) (v : Word) : (outputWrite s v).jumped = s.jumped := rfl
@[simp] theorem outputWrite_regs (s : State) (v : Word) : (outputWrite s v).regs = s.regs := rfl
@[simp] theorem outputWrite_hi (s : State) (v : Word) : (outputWrite s v).hi = s.hi := rfl
@[simp] theorem outputWrite_lo (s : State) (v : Word) : (outputWrite s v).lo = s.lo := rfl
@[simp] theorem outputWrite_pcMin (s : State) (v : Word) : (outputWrite s v).pcMin = s.pcMin := rfl
@[simp] theorem outputWrite_pcMax (s : State) (v : Word) : (outputWrite s v).pcMax = s.pcMax := rfl
@[simp] theorem outputWrite_blocks (s : State) (v : Word) : (outputWrite s v).blocks = s.blocks := rfl
@[simp] theorem outputWrite_mem (s : State) (v : Word) : (outputWrite s v).mem = s.mem := rfl
@[simp] theorem outputWrite_input (s : State) (v : Word) : (outputWrite s v).input = s.input := rfl
@[simp] theorem outputWrite_output (s : State) (v : Word) : (outputWrite s v).output = s.output ++ [v.setWidth 8] := rfl
@[simp] theorem outputWrite_params (s : State) (v : Word) : (outputWrite s v).params = s.params := rfl

/-! ## advance -/

@[simp] theorem advance_pc (s : State) : (advance s).pc = if s.jumped then s.pcNext else s.pc + 4#32 := rfl
@[simp] theorem advance_pcNext (s : State) : (advance s).pcNext = s.pcNext := rfl
@[simp] theorem advance_jumped (s : State) : (advance s).jumped = false := rfl
@[simp] theorem advance_regs (s : State) : (advance s).regs = s.regs := rfl
@[simp] theorem advance_hi (s : State) : (advance s).hi = s.hi := rfl
@[simp] theorem advance_lo (s : State) : (advance s).lo = s.lo := rfl
@[simp] theorem advance_pcMin (s : State) : (advance s).pcMin = s.pcMin := rfl
@[simp] theorem advance_pcMax (s : State) : (advance s).pcMax = s.pcMax := rfl
@[simp] theorem advance_blocks (s : State) : (advance s).blocks = s.blocks := rfl
@[simp] theorem advance_mem (s : State) : (advance s).mem = s.mem := rfl
@[simp] theorem advance_input (s : State) : (advance s).input = s.input := rfl
@[simp] theorem advance_output (s : State) : (advance s).output = s.output := rfl
@[simp] theorem advance_params (s : State) : (advance s).params = s.params := rfl

/-! ## inputRead -/

@[simp] theorem inputRead_pc (s : State) : (inputRead s).2.pc = s.pc := by
  unfold inputRead; split <;> rfl
@[simp] theorem inputRead_pcNext (s : State) : (inputRead s).2.pcNext = s.pcNext := by
  unfold inputRead; split <;> rfl
@[simp] theorem inputRead_jumped (s : State) : (inputRead s).2.jumped = s.jumped := by
  unfold inputRead; split <;> rfl
@[simp] theorem inputRead_regs (s : State) : (inputRead s).2.regs = s.regs := by
  unfold inputRead; split <;> rfl
@[simp] theorem inputRead_hi (s : State) : (inputRead s).2.hi = s.hi := by
  unfold inputRead; split <;> rfl
@[simp] theorem inputRead_lo (s : State) : (inputRead s).2.lo = s.lo := by
  unfold inputRead; split <;> rfl
@[simp] theorem inputRead_pcMin (s : State) : (inputRead s).2.pcMin = s.pcMin := by
  unfold inputRead; split <;> rfl
@[simp] theorem inputRead_pcMax (s : State) : (inputRead s).2.pcMax = s.pcMax := by
  unfold inputRead; split <;> rfl
@[simp] theorem inputRead_blocks (s : State) : (inputRead s).2.blocks = s.blocks := by
  unfold inputRead; split <;> rfl
@[simp] theorem inputRead_mem (s : State) : (inputRead s).2.mem = s.mem := by
  unfold inputRead; split <;> rfl
@[simp] theorem inputRead_output (s : State) : (inputRead s).2.output = s.output := by
  unfold inputRead; split <;> rfl
@[simp] theorem inputRead_params (s : State) : (inputRead s).2.params = s.params := by
  unfold inputRead; split <;> rfl

/-! ## Bytes and registers through the updates -/

@[simp] theorem setReg_byte (s : State) (r : RegNum) (v : Word) (a : Nat) : (s.setReg r v).byte a = s.byte a := by simp [State.byte]
@[simp] theorem setHiLo_byte (s : State) (hi lo : Word) (a : Nat) : (s.setHiLo hi lo).byte a = s.byte a := by simp [State.byte]
@[simp] theorem setHiLo_reg (s : State) (hi lo : Word) (k : RegNum) : (s.setHiLo hi lo).reg k = s.reg k := by simp [State.reg]
@[simp] theorem branchTo_byte (s : State) (t : Word) (a : Nat) : (branchTo s t).byte a = s.byte a := by simp [State.byte]
@[simp] theorem branchTo_reg (s : State) (t : Word) (k : RegNum) : (branchTo s t).reg k = s.reg k := by simp [State.reg]
@[simp] theorem outputWrite_byte (s : State) (v : Word) (a : Nat) : (outputWrite s v).byte a = s.byte a := by simp [State.byte]
@[simp] theorem outputWrite_reg (s : State) (v : Word) (k : RegNum) : (outputWrite s v).reg k = s.reg k := by simp [State.reg]
@[simp] theorem advance_byte (s : State) (a : Nat) : (advance s).byte a = s.byte a := by simp [State.byte]
@[simp] theorem advance_reg (s : State) (k : RegNum) : (advance s).reg k = s.reg k := by simp [State.reg]
@[simp] theorem inputRead_byte (s : State) (a : Nat) : (inputRead s).2.byte a = s.byte a := by simp [State.byte]
@[simp] theorem inputRead_reg (s : State) (k : RegNum) : (inputRead s).2.reg k = s.reg k := by simp [State.reg]

/-! ## The register ports -/

@[simp] theorem reg_zero (s : State) : s.reg 0#5 = 0#32 := by simp [State.reg]

@[simp] theorem setReg_zero (s : State) (v : Word) : s.setReg 0#5 v = s := by simp [State.setReg]

theorem regIndex_inj {i k : RegNum} (hi : i ≠ 0#5) (hk : k ≠ 0#5) (h : regIndex i = regIndex k) : i = k := by
  have h1 : i.toNat ≠ 0 := fun h0 => hi (BitVec.eq_of_toNat_eq h0)
  have h2 : k.toNat ≠ 0 := fun h0 => hk (BitVec.eq_of_toNat_eq h0)
  have h3 : i.toNat - 1 = k.toNat - 1 := congrArg Fin.val h
  exact BitVec.eq_of_toNat_eq (by omega)

/-- The register written reads as written: register 0 stays 0, any other holds the value. -/
@[simp] theorem reg_setReg_self (s : State) (r : RegNum) (v : Word) : (s.setReg r v).reg r = written r v := by
  by_cases h : r = 0#5 <;> simp [State.setReg, State.reg, written, h]

/-- No other register changes. -/
theorem reg_setReg_of_ne (s : State) {r k : RegNum} (v : Word) (h : k ≠ r) : (s.setReg r v).reg k = s.reg k := by
  by_cases hr : r = 0#5
  · simp [State.setReg, hr]
  · by_cases hk : k = 0#5
    · simp [State.reg, hk]
    · have hne : (regIndex r).val ≠ (regIndex k).val := fun e => h (regIndex_inj hk hr (Fin.ext e.symm))
      simp [State.setReg, State.reg, hr, hk, hne]

/-- Two states with the same registers and the same other fields are the same state. -/
theorem regs_ext {s t : State} (h : SameRegs s t) : t.regs = s.regs := by
  apply Vector.ext
  intro i hi
  have hk : (BitVec.ofNat 5 (i + 1)).toNat = i + 1 := by simp; omega
  have hne : BitVec.ofNat 5 (i + 1) ≠ 0#5 := fun e => by
    have := congrArg BitVec.toNat e
    simp [hk] at this
  have := h (BitVec.ofNat 5 (i + 1))
  simpa [State.reg, hne, regIndex, hk] using this

end Sys2Proof.Machine
end

