-- ==== Sys2Proof/Laws/Memory.lean ====
section
/-! SUPPORT. The laws of storage: canonical form kept by every operation, a byte written reads back, every other byte is
left alone, and what a word read or written is in bytes (R54, R63, R67). -/

namespace Sys2Proof.Machine

/-! ## Bytes -/

theorem getByte_of_below {m : List Host.Cell} {a : Nat} (h : ∀ c ∈ m, a < c.1) : Memory.getByte m a = 0#8 := by
  induction m with
  | nil => rfl
  | cons c rest ih =>
    have h0 : c.1 ≠ a := fun e => by have := h c (by simp); omega
    simp only [Memory.getByte, h0, if_false]
    exact ih fun d hd => h d (by simp [hd])

theorem wf_cons {k : Nat} {b : Byte} {rest : List Host.Cell} :
    Memory.wf ((k, b) :: rest) = true ↔ b ≠ 0#8 ∧ (∀ c ∈ rest, k < c.1) ∧ Memory.wf rest = true := by
  simp [Memory.wf, and_assoc]

/-- Reading after writing a byte, in canonical storage: the written byte there, the old one elsewhere. -/
theorem getByte_setByte {m : List Host.Cell} (hm : Memory.wf m = true) (a : Nat) (v : Byte) (x : Nat) :
    Memory.getByte (Memory.setByte m a v) x = if x = a then v else Memory.getByte m x := by
  induction m with
  | nil =>
    by_cases hv : v = 0#8
    · simp [Memory.setByte, Memory.getByte, hv]
    · by_cases hx : x = a
      · simp [Memory.setByte, Memory.getByte, hv, hx]
      · simp [Memory.setByte, Memory.getByte, hv, hx, Ne.symm hx]
  | cons c rest ih =>
    obtain ⟨k, b⟩ := c
    obtain ⟨_, hlt, hrest⟩ := wf_cons.1 hm
    have ih := ih hrest
    simp only [Memory.setByte]
    split
    · rename_i hak
      have hbelow : Memory.getByte ((k, b) :: rest) a = 0#8 := by
        apply getByte_of_below
        intro c hc
        rcases List.mem_cons.1 hc with rfl | hc
        · exact hak
        · exact lt_trans hak (hlt c hc)
      by_cases hx : x = a
      · subst hx
        split
        · rename_i hv; simp [hbelow, hv]
        · simp [Memory.getByte]
      · split
        · rfl
        · simp [Memory.getByte, Ne.symm hx]
    · split
      · rename_i hak
        subst hak
        by_cases hx : x = a
        · subst hx
          split
          · rename_i hv; simp [hv, getByte_of_below hlt]
          · simp [Memory.getByte]
        · rw [if_neg hx]
          split <;> simp [Memory.getByte, Ne.symm hx]
      · rename_i h1 h2
        by_cases hx : k = x
        · subst hx; simp [Memory.getByte, Ne.symm h2]
        · simp [Memory.getByte, hx, ih]

theorem mem_setByte {m : List Host.Cell} {a : Nat} {v : Byte} {c : Host.Cell} (h : c ∈ Memory.setByte m a v) :
    c.1 = a ∨ c ∈ m := by
  induction m with
  | nil =>
    simp only [Memory.setByte] at h
    split at h
    · simp at h
    · exact .inl (by simp at h; simp [h])
  | cons d rest ih =>
    obtain ⟨k, b⟩ := d
    simp only [Memory.setByte] at h
    split at h
    · split at h
      · exact .inr h
      · rcases List.mem_cons.1 h with rfl | h
        · exact .inl rfl
        · exact .inr h
    · split at h
      · split at h
        · exact .inr (List.mem_cons_of_mem _ h)
        · rcases List.mem_cons.1 h with rfl | h
          · exact .inl rfl
          · exact .inr (List.mem_cons_of_mem _ h)
      · rcases List.mem_cons.1 h with rfl | h
        · exact .inr (by simp)
        · exact (ih h).imp_right (List.mem_cons_of_mem _)

/-- Writing a byte keeps the canonical form. -/
theorem setByte_wf {m : List Host.Cell} (hm : Memory.wf m = true) (a : Nat) (v : Byte) :
    Memory.wf (Memory.setByte m a v) = true := by
  induction m with
  | nil => by_cases hv : v = 0#8 <;> simp [Memory.setByte, Memory.wf, hv]
  | cons c rest ih =>
    obtain ⟨k, b⟩ := c
    obtain ⟨hb, hlt, hrest⟩ := wf_cons.1 hm
    simp only [Memory.setByte]
    split
    · rename_i hak
      split
      · exact hm
      · rename_i hv
        refine wf_cons.2 ⟨hv, fun c hc => ?_, hm⟩
        rcases List.mem_cons.1 hc with rfl | hc
        · exact hak
        · exact lt_trans hak (hlt c hc)
    · split
      · rename_i hak
        subst hak
        split
        · exact hrest
        · rename_i hv; exact wf_cons.2 ⟨hv, hlt, hrest⟩
      · refine wf_cons.2 ⟨hb, fun c hc => ?_, ih hrest⟩
        rcases mem_setByte hc with h | h
        · omega
        · exact hlt c h

/-! ## Words -/

/-- Storing a word keeps the canonical form. -/
theorem setWord_wf {m : List Host.Cell} (hm : Memory.wf m = true) (a : Nat) (v : Word) :
    Memory.wf (Memory.setWord m a v) = true := by
  unfold Memory.setWord
  exact setByte_wf (setByte_wf (setByte_wf (setByte_wf hm _ _) _ _) _ _) _ _

/-- A stored word lists bytes only at its own four addresses. -/
theorem mem_setWord {m : List Host.Cell} {a : Nat} {v : Word} {c : Host.Cell} (h : c ∈ Memory.setWord m a v) :
    (a ≤ c.1 ∧ c.1 < a + 4) ∨ c ∈ m := by
  unfold Memory.setWord at h
  rcases mem_setByte h with h | h
  · exact .inl (by omega)
  rcases mem_setByte h with h | h
  · exact .inl (by omega)
  rcases mem_setByte h with h | h
  · exact .inl (by omega)
  rcases mem_setByte h with h | h
  · exact .inl (by omega)
  exact .inr h

/-- Reading a byte after storing a word: the word's byte at its offset, or the old byte. -/
theorem getByte_setWord {m : List Host.Cell} (hm : Memory.wf m = true) (a : Nat) (v : Word) (x : Nat) :
    Memory.getByte (Memory.setWord m a v) x =
      if a ≤ x ∧ x < a + 4 then byteAt v (x - a) else Memory.getByte m x := by
  have h1 := setByte_wf hm a (byteAt v 0)
  have h2 := setByte_wf h1 (a + 1) (byteAt v 1)
  have h3 := setByte_wf h2 (a + 2) (byteAt v 2)
  unfold Memory.setWord
  rw [getByte_setByte h3, getByte_setByte h2, getByte_setByte h1, getByte_setByte hm]
  by_cases e3 : x = a + 3
  · simp [e3]
  by_cases e2 : x = a + 2
  · simp [e2]
  by_cases e1 : x = a + 1
  · simp [e1]
  by_cases e0 : x = a
  · simp [e0]
  have : ¬(a ≤ x ∧ x < a + 4) := by omega
  simp [e3, e2, e1, e0, this]

/-- A byte of four bytes put together is the byte at that offset (R63). -/
theorem byteAt_wordOfBytes (b0 b1 b2 b3 : Byte) :
    byteAt (wordOfBytes b0 b1 b2 b3) 0 = b0 ∧ byteAt (wordOfBytes b0 b1 b2 b3) 1 = b1 ∧
      byteAt (wordOfBytes b0 b1 b2 b3) 2 = b2 ∧ byteAt (wordOfBytes b0 b1 b2 b3) 3 = b3 := by
  refine ⟨?_, ?_, ?_, ?_⟩ <;>
  · apply BitVec.eq_of_getLsbD_eq
    intro i hi
    have : i = 0 ∨ i = 1 ∨ i = 2 ∨ i = 3 ∨ i = 4 ∨ i = 5 ∨ i = 6 ∨ i = 7 := by omega
    rcases this with h | h | h | h | h | h | h | h <;> subst h <;>
      simp [byteAt, wordOfBytes]

/-- A word is its four bytes put together (R63). -/
theorem wordOfBytes_byteAt (w : Word) :
    wordOfBytes (byteAt w 0) (byteAt w 1) (byteAt w 2) (byteAt w 3) = w := by
  apply BitVec.eq_of_getLsbD_eq
  intro i hi
  simp only [wordOfBytes, byteAt, BitVec.getLsbD_or, BitVec.getLsbD_shiftLeft, BitVec.getLsbD_setWidth,
    BitVec.getLsbD_ushiftRight]
  by_cases h1 : i < 8
  · simp [h1, hi, show i < 16 by omega, show i < 24 by omega]
  by_cases h2 : i < 16
  · simp [h1, h2, hi, show i < 24 by omega, show i - 8 < 8 by omega, show i - 8 < 32 by omega,
      show 8 + (i - 8) = i by omega]
  by_cases h3 : i < 24
  · simp [h1, h2, h3, hi, show ¬ i - 8 < 8 by omega, show i - 16 < 8 by omega, show i - 16 < 32 by omega,
      show 16 + (i - 16) = i by omega]
  · simp [h1, h3, hi, show ¬ i < 16 by omega, show ¬ i - 8 < 8 by omega, show ¬ i - 16 < 8 by omega,
      show i - 24 < 8 by omega, show i - 24 < 32 by omega, show 24 + (i - 24) = i by omega]

/-- Four bytes make the word that has them in order from the most significant (R63). -/
theorem wordOfBytes_eq_append (b0 b1 b2 b3 : Byte) : wordOfBytes b0 b1 b2 b3 = b0 ++ b1 ++ b2 ++ b3 := by
  apply BitVec.eq_of_getLsbD_eq
  intro i hi
  change (wordOfBytes b0 b1 b2 b3).getLsbD i = BitVec.getLsbD (w := 8 + 8 + 8 + 8) (b0 ++ b1 ++ b2 ++ b3) i
  simp only [wordOfBytes, BitVec.getLsbD_append]
  interval_cases i <;> simp

/-- A word read has the stored bytes at its offsets. -/
theorem byteAt_getWord (m : List Host.Cell) (a n : Nat) (h : n < 4) :
    byteAt (Memory.getWord m a) n = Memory.getByte m (a + n) := by
  obtain ⟨h0, h1, h2, h3⟩ := byteAt_wordOfBytes (Memory.getByte m a) (Memory.getByte m (a + 1))
    (Memory.getByte m (a + 2)) (Memory.getByte m (a + 3))
  have : n = 0 ∨ n = 1 ∨ n = 2 ∨ n = 3 := by omega
  rcases this with rfl | rfl | rfl | rfl
  · exact h0
  · exact h1
  · exact h2
  · exact h3

/-- A word stored reads back. -/
theorem getWord_setWord {m : List Host.Cell} (hm : Memory.wf m = true) (a : Nat) (v : Word) :
    Memory.getWord (Memory.setWord m a v) a = v := by
  unfold Memory.getWord
  simp only [getByte_setWord hm]
  have e : ∀ k, a + k - a = k := by omega
  simp [e, wordOfBytes_byteAt]

/-- Storage is empty at reset, so canonical. -/
theorem reset_mem_wf : Memory.wf State.reset.mem = true := rfl

end Sys2Proof.Machine
end

