-- ==== Sys2Proof/Laws/Ops.lean ====
section
/-! SUPPORT. What each shared operation of Machine/Ops.lean and Machine/Operands.lean can do, said once: the lookup in the
standard layout (R52, R57), the AddressSpace in it (R58), the accesses of an instruction (R262), fetch and advance
(R110 to R112). -/

namespace Sys2Proof.Machine

/-! ## Addresses and lanes -/

theorem wordAddr_eq_shift (a : Word) : wordAddr a = (a >>> 2) <<< 2 := by
  apply BitVec.eq_of_getLsbD_eq
  intro i hi
  have hm : (0xFFFFFFFC#32).getLsbD i = decide (2 ≤ i) := by
    interval_cases i <;> rfl
  simp only [wordAddr, BitVec.getLsbD_and, hm, BitVec.getLsbD_shiftLeft, BitVec.getLsbD_ushiftRight]
  by_cases h : 2 ≤ i
  · simp [h, hi, show ¬ i < 2 by omega, show 2 + (i - 2) = i by omega]
  · simp [h, show i < 2 by omega]

/-- WA is the address rounded down to a multiple of 4 (R250). -/
@[simp] theorem toNat_wordAddr (a : Word) : (wordAddr a).toNat = 4 * (a.toNat / 4) := by
  have := a.isLt
  rw [wordAddr_eq_shift]
  simp [BitVec.toNat_shiftLeft, Nat.shiftRight_eq_div_pow, Nat.shiftLeft_eq]
  omega

/-- The byte of a word that holds an address, in the word stored around it, is the byte at the address (R63). -/
theorem byteAt_lane (m : List Host.Cell) (a : Word) :
    byteAt (Memory.getWord m (4 * (a.toNat / 4))) (laneOf a) = Memory.getByte m a.toNat := by
  rw [laneOf, byteAt_getWord _ _ _ (Nat.mod_lt _ (by decide))]
  congr 1
  omega

/-- A halfword of a word is its two bytes, the first the most significant (R251). -/
theorem halfAt_eq_append (w : Word) (n : Nat) (h : n = 0 ∨ n = 2) : halfAt w n = byteAt w n ++ byteAt w (n + 1) := by
  apply BitVec.eq_of_getLsbD_eq
  intro i hi
  change (halfAt w n).getLsbD i = BitVec.getLsbD (w := 8 + 8) (byteAt w n ++ byteAt w (n + 1)) i
  simp only [halfAt, byteAt, BitVec.getLsbD_append]
  rcases h with rfl | rfl <;> interval_cases i <;> simp

/-- The halfword of a word at an even address, in the word stored around it, is the two bytes there (R63). -/
theorem halfAt_lane (m : List Host.Cell) (a : Word) (h : a.toNat % 2 = 0) :
    halfAt (Memory.getWord m (4 * (a.toNat / 4))) (laneOf a) =
      Memory.getByte m a.toNat ++ Memory.getByte m (a.toNat + 1) := by
  have hn : laneOf a = 0 ∨ laneOf a = 2 := by
    simp only [laneOf]
    omega
  have e : 4 * (a.toNat / 4) + (laneOf a + 1) = a.toNat + 1 := by
    simp only [laneOf]
    omega
  rw [halfAt_eq_append _ _ hn, byteAt_lane, byteAt_getWord _ _ _ (by omega), e]

/-! ## The AddressSpace in the standard layout -/

theorem findBlock_standard (a : Word) :
    findBlock standardLayout a =
      some (if 0x20000000 ≤ a.toNat then dataBlock else if 0x10000000 ≤ a.toNat then instrBlock else sentinelBlock) := by
  have h0 : sentinelBlock.start ≤ a := by simp [sentinelBlock, BitVec.le_def]
  have h1 : (instrBlock.start ≤ a) = (0x10000000 ≤ a.toNat) := by simp [instrBlock, BitVec.le_def]
  have h2 : (dataBlock.start ≤ a) = (0x20000000 ≤ a.toNat) := by simp [dataBlock, BitVec.le_def]
  have l1 : ¬ dataBlock.start < instrBlock.start := by decide
  have l2 : ¬ dataBlock.start < sentinelBlock.start := by decide
  have l3 : ¬ instrBlock.start < sentinelBlock.start := by decide
  by_cases ha : 0x20000000 ≤ a.toNat
  · simp [findBlock, standardLayout, h1, h2, ha, l1, l2]
  · by_cases hb : 0x10000000 ≤ a.toNat
    · simp [findBlock, standardLayout, h1, h2, ha, hb, l3]
    · simp [findBlock, standardLayout, h0, h1, h2, ha, hb]

/-- The local address and the bound check of the Block that serves an address, in numbers. -/
theorem sub_toNat_of_le {a b : Word} (h : b.toNat ≤ a.toNat) : (a - b).toNat = a.toNat - b.toNat := by
  have := a.isLt
  have := b.isLt
  rw [BitVec.toNat_sub]
  omega

theorem check_standard (a : Word) (force denied : Bool) (b : Block) (hb : b.start.toNat ≤ a.toNat) :
    Block.check b (a - b.start) denied force =
      if b.start.toNat + b.length.toNat ≤ a.toNat then some .badAddress
      else if !force && denied then some .permission else none := by
  have : (b.length ≤ a - b.start) = (b.start.toNat + b.length.toNat ≤ a.toNat) := by
    simp only [BitVec.le_def, sub_toNat_of_le hb, eq_iff_iff]
    omega
  simp [Block.check, this]

theorem wordAddress_standard (a : Word) (b : Block) (hb : b.start.toNat ≤ a.toNat) (hal : b.start.toNat % 4 = 0) :
    Block.wordAddress b (a - b.start) = 4 * (a.toNat / 4) := by
  simp only [Block.wordAddress, sub_toNat_of_le hb]
  omega

theorem toNat_ne_of_ne {a : Word} {n : Nat} (h : a.toNat ≠ n) (w : Word) (hw : w.toNat = n) : a ≠ w :=
  fun e => h (e ▸ hw)

/-- A read of a backed address returns the stored word around it and changes nothing (R58). -/
theorem memRead_backed {s : State} (hl : s.blocks = standardLayout) (a : Word) (force : Bool) (h : Backed a.toNat) :
    memRead s a force = .ok (Memory.getWord s.mem (4 * (a.toNat / 4)), s) := by
  have hp : a ≠ inputPort := toNat_ne_of_ne (n := 0x30000000) (by unfold Backed at h; omega) _ rfl
  rw [memRead, if_neg hp, hl, findBlock_standard]
  unfold Backed at h
  by_cases ha : 0x20000000 ≤ a.toNat
  · have hb : dataBlock.start.toNat ≤ a.toNat := ha
    have hn : ¬ dataBlock.start.toNat + dataBlock.length.toNat ≤ a.toNat := by
      simp [dataBlock]; omega
    have hd : Block.readDenied dataBlock = false := rfl
    simp [ha, Block.read, check_standard a force _ _ hb, hn, hd, wordAddress_standard a _ hb (by decide)]
  · by_cases hi : 0x10000000 ≤ a.toNat
    · have hb : instrBlock.start.toNat ≤ a.toNat := hi
      have hn : ¬ instrBlock.start.toNat + instrBlock.length.toNat ≤ a.toNat := by
        simp [instrBlock]; omega
      have hd : Block.readDenied instrBlock = false := rfl
      simp [ha, hi, Block.read, check_standard a force _ _ hb, hn, hd, wordAddress_standard a _ hb (by decide)]
    · have hb : sentinelBlock.start.toNat ≤ a.toNat := by simp [sentinelBlock]
      have hn : ¬ sentinelBlock.start.toNat + sentinelBlock.length.toNat ≤ a.toNat := by
        simp [sentinelBlock]; omega
      have hd : Block.readDenied sentinelBlock = false := rfl
      simp [ha, hi, Block.read, check_standard a force _ _ hb, hn, hd, wordAddress_standard a _ hb (by decide)]

/-- The bound check fails exactly at the addresses outside the Blocks. -/
theorem memAccess_unbacked (a : Word) (h : ¬ Backed a.toNat) (denied : Block → Bool) (force : Bool) :
    ∃ b, findBlock standardLayout a = some b ∧
      Block.check b (a - b.start) (denied b) force = some .badAddress := by
  refine ⟨_, findBlock_standard a, ?_⟩
  unfold Backed at h
  by_cases ha : 0x20000000 ≤ a.toNat
  · have hn : dataBlock.start.toNat + dataBlock.length.toNat ≤ a.toNat := by simp [dataBlock]; omega
    simp [ha, check_standard a force _ dataBlock ha, hn]
  · by_cases hi : 0x10000000 ≤ a.toNat
    · have hn : instrBlock.start.toNat + instrBlock.length.toNat ≤ a.toNat := by simp [instrBlock]; omega
      simp [ha, hi, check_standard a force _ instrBlock hi, hn]
    · have hn : sentinelBlock.start.toNat + sentinelBlock.length.toNat ≤ a.toNat := by simp [sentinelBlock]; omega
      simp [ha, hi, check_standard a force _ sentinelBlock (by simp [sentinelBlock]), hn]

/-- A read of an address that no Block backs and that is not the input port is out of bounds, forced or not (R58). -/
theorem memRead_unbacked {s : State} (hl : s.blocks = standardLayout) (a : Word) (force : Bool)
    (h : ¬ Backed a.toNat) (hp : a ≠ inputPort) : memRead s a force = .error .badAddress := by
  obtain ⟨b, hf, hc⟩ := memAccess_unbacked a h Block.readDenied force
  simp [memRead, hp, hl, hf, Block.read, hc]

/-- A read of the input port delivers the next byte, or all ones at the end of the input (R60). -/
theorem memRead_input (s : State) (force : Bool) : memRead s inputPort force = .ok (inputRead s) := by
  simp [memRead]

/-- A write to data memory stores the word (R58). -/
theorem memWrite_data {s : State} (hl : s.blocks = standardLayout) (a v : Word) (force : Bool) (h : InData a.toNat) :
    memWrite s a v force = .ok { s with mem := Memory.setWord s.mem (4 * (a.toNat / 4)) v } := by
  unfold InData at h
  have hp : a ≠ outputPort := toNat_ne_of_ne (n := 0x30000004) (by omega) _ rfl
  have hb : dataBlock.start.toNat ≤ a.toNat := h.1
  have hn : ¬ dataBlock.start.toNat + dataBlock.length.toNat ≤ a.toNat := by simp [dataBlock]; omega
  have hd : Block.writeDenied dataBlock = false := rfl
  rw [memWrite, if_neg hp, hl, findBlock_standard]
  simp [h.1, Block.write, check_standard a force _ _ hb, hn, hd, wordAddress_standard a _ hb (by decide)]

/-- A write to the sentinel or to instruction memory is denied unless it is forced (R54, R58). -/
theorem memWrite_readOnly {s : State} (hl : s.blocks = standardLayout) (a v : Word) (force : Bool)
    (h : InReadOnly a.toNat) :
    memWrite s a v force =
      if force then .ok { s with mem := Memory.setWord s.mem (4 * (a.toNat / 4)) v } else .error .permission := by
  unfold InReadOnly at h
  have hp : a ≠ outputPort := toNat_ne_of_ne (n := 0x30000004) (by omega) _ rfl
  have ha : ¬ 0x20000000 ≤ a.toNat := by omega
  rw [memWrite, if_neg hp, hl, findBlock_standard]
  by_cases hi : 0x10000000 ≤ a.toNat
  · have hb : instrBlock.start.toNat ≤ a.toNat := hi
    have hn : ¬ instrBlock.start.toNat + instrBlock.length.toNat ≤ a.toNat := by simp [instrBlock]; omega
    have hd : Block.writeDenied instrBlock = true := rfl
    cases force <;>
      simp [ha, hi, Block.write, check_standard a _ _ _ hb, hn, hd, wordAddress_standard a _ hb (by decide)]
  · have hb : sentinelBlock.start.toNat ≤ a.toNat := by simp [sentinelBlock]
    have hn : ¬ sentinelBlock.start.toNat + sentinelBlock.length.toNat ≤ a.toNat := by simp [sentinelBlock]; omega
    have hd : Block.writeDenied sentinelBlock = true := rfl
    cases force <;>
      simp [ha, hi, Block.write, check_standard a _ _ _ hb, hn, hd, wordAddress_standard a _ hb (by decide)]

/-- A write of an address that no Block backs and that is not the output port is out of bounds (R58). -/
theorem memWrite_unbacked {s : State} (hl : s.blocks = standardLayout) (a v : Word) (force : Bool)
    (h : ¬ Backed a.toNat) (hp : a ≠ outputPort) : memWrite s a v force = .error .badAddress := by
  obtain ⟨b, hf, hc⟩ := memAccess_unbacked a h Block.writeDenied force
  simp [memWrite, hp, hl, hf, Block.write, hc]

/-- A write of the output port emits the low byte (R61). -/
theorem memWrite_output (s : State) (v : Word) (force : Bool) :
    memWrite s outputPort v force = .ok (outputWrite s v) := by
  simp [memWrite]

/-! ## What an access can do in any state -/

/-- A read that answers changes at most the input, by one byte, and only at the input port (R67). -/
theorem memRead_cases {s s' : State} {a w : Word} {force : Bool} (h : memRead s a force = .ok (w, s')) :
    s' = s ∨ (a = inputPort ∧ ∃ b rest, s.input = b :: rest ∧ s' = { s with input := rest }) := by
  unfold memRead at h
  split at h
  · rename_i hp
    simp only [Except.ok.injEq] at h
    unfold inputRead at h
    split at h
    · exact .inl (by simpa using (Prod.mk.inj h).2.symm)
    · rename_i b rest hin
      exact .inr ⟨hp, b, rest, hin, (Prod.mk.inj h).2.symm⟩
  · split at h
    · cases h
    · split at h
      · cases h
      · simp only [Except.ok.injEq, Prod.mk.injEq] at h
        exact .inl h.2.symm

/-- A write that answers emits one byte, or stores one word inside the Block the lookup selects (R54, R56, R67). -/
theorem memWrite_cases {s s' : State} {a v : Word} {force : Bool} (h : memWrite s a v force = .ok s') :
    (a = outputPort ∧ s' = outputWrite s v) ∨
      (∃ b, findBlock s.blocks a = some b ∧ ¬ b.length ≤ a - b.start ∧ (force = true ∨ Block.writeDenied b = false) ∧
        s' = { s with mem := Memory.setWord s.mem (Block.wordAddress b (a - b.start)) v }) := by
  unfold memWrite at h
  split at h
  · rename_i hp
    simp only [Except.ok.injEq] at h
    exact .inl ⟨hp, h.symm⟩
  · split at h
    · cases h
    · rename_i b hb
      unfold Block.write Block.check at h
      by_cases hlen : b.length ≤ a - b.start
      · simp [hlen] at h
      · by_cases hden : !force && Block.writeDenied b
        · simp [hlen, hden] at h
        · simp [hlen, hden] at h
          refine .inr ⟨b, hb, hlen, ?_, h.symm⟩
          cases force <;> simp_all

/-- A read inside an instruction that goes on: the rest ran from a state `memRead_cases` describes. -/
theorem withRead_next {s t : State} {a : Word} {force : Bool} {k : Word → State → Out}
    (h : withRead s a force k = .next t) : ∃ w s', memRead s a force = .ok (w, s') ∧ k w s' = .next t := by
  unfold withRead at h
  split at h
  · cases h
  · rename_i w s' hr
    exact ⟨w, s', hr, h⟩

theorem finishWrite_next {s t : State} {a v : Word} (h : finishWrite s a v = .next t) :
    memWrite s a v false = .ok t := by
  unfold finishWrite at h
  split at h
  · cases h
  · rename_i s' hw
    cases h
    exact hw

/-- A sub-word store that goes on read its word and wrote it back merged (R262). -/
theorem subWordStore_next {s t : State} {wa mask v : Word} (h : subWordStore s wa mask v = .next t) :
    ∃ w s', memRead s wa true = .ok (w, s') ∧ memWrite s' wa ((w &&& ~~~mask) ||| v) false = .ok t := by
  obtain ⟨w, s', hr, hk⟩ := withRead_next h
  exact ⟨w, s', hr, finishWrite_next hk⟩

/-! ## Fetch -/

/-- A fetch that answers found PC valid (R110) and read its word (R111). -/
theorem fetch_ok {s s1 : State} {w : Word} (h : fetch s = .ok (w, s1)) :
    pcValid s s.pc = true ∧ memRead s s.pc false = .ok (w, s1) := by
  unfold fetch at h
  split at h
  · rename_i hv
    exact ⟨hv, h⟩
  · cases h

/-- A step that goes on fetched, decoded, passed the delay-slot check and executed, and PC did not become 0 (R117). -/
theorem step_next {s t : State} (h : step s = .next t) :
    ∃ w s1 i, fetch s = .ok (w, s1) ∧ decode s.params w = .ok i ∧ delaySlotTraps s.params s.jumped i = false ∧
      exec i (advance s1) = .next t ∧ t.pc ≠ 0#32 := by
  unfold step at h
  split at h
  · cases h
  · rename_i w s1 hf
    split at h
    · cases h
    · rename_i i hd
      split at h
      · cases h
      · rename_i hs
        refine ⟨w, s1, i, hf, hd, by simpa using hs, ?_⟩
        cases he : exec i (advance s1) with
        | next u =>
          rw [he] at h
          simp only [terminate] at h
          split at h
          · cases h
          · rename_i hpc
            cases h
            exact ⟨rfl, hpc⟩
        | fault r => rw [he] at h; cases h
        | refused r => rw [he] at h; cases h

end Sys2Proof.Machine
end

