-- ==== Sys2Proof/Laws/Meanings.lean ====
section
/-! SUPPORT. What the operations shared by the meanings of one family answer, said once: the trapping additions (R180), the
alignment check and the loads (R252), and the branches (R220, R223). -/

namespace Sys2Proof.Machine

@[simp] theorem raise_ne_next (tr : Trap) (s t : State) : raise tr s ≠ .next t := by simp [raise]

/-- An addition that goes on did not overflow and wrote the sum (R180, R181). -/
theorem addTrapping_next {s t : State} {r : RegNum} {a b : Word} (h : addTrapping s r a b = .next t) :
    addOverflow a b (a + b) = false ∧ t = s.setReg r (a + b) := by
  unfold addTrapping at h
  split at h
  · cases h
  · rename_i ho
    cases h
    exact ⟨by simpa using ho, rfl⟩

/-- A subtraction that goes on did not overflow and wrote the difference (R180, R183). -/
theorem subTrapping_next {s t : State} {r : RegNum} {a b : Word} (h : subTrapping s r a b = .next t) :
    subOverflow a b (a - b) = false ∧ t = s.setReg r (a - b) := by
  unfold subTrapping at h
  split at h
  · cases h
  · rename_i ho
    cases h
    exact ⟨by simpa using ho, rfl⟩

/-- An access that goes on was aligned (R252). -/
theorem aligned_next {s t : State} {a : Word} {n : Nat} {rest : Out} (h : aligned s a n rest = .next t) :
    a.toNat % n = 0 ∧ rest = .next t := by
  unfold aligned at h
  split at h
  · exact ⟨‹_›, h⟩
  · cases h

/-- A load that goes on read its word and wrote one register (R252). -/
theorem loadLane_next {s t : State} {r : RegNum} {a : Word} {value : Word → Word}
    (h : loadLane s r a value = .next t) :
    ∃ w s', memRead s (wordAddr a) false = .ok (w, s') ∧ t = s'.setReg r (value w) := by
  obtain ⟨w, s', hr, hk⟩ := withRead_next h
  cases hk
  exact ⟨w, s', hr, rfl⟩

/-! ## Branches -/

section
variable (c : Bool) (s : State) (target : Word)

@[simp] theorem branchIf_pc : (branchIf c s target).pc = s.pc := by cases c <;> rfl
@[simp] theorem branchIf_pcNext : (branchIf c s target).pcNext = if c then target else s.pcNext := by cases c <;> rfl
@[simp] theorem branchIf_jumped : (branchIf c s target).jumped = (c || s.jumped) := by cases c <;> rfl
@[simp] theorem branchIf_regs : (branchIf c s target).regs = s.regs := by cases c <;> rfl
@[simp] theorem branchIf_reg (k : RegNum) : (branchIf c s target).reg k = s.reg k := by cases c <;> simp [branchIf]
@[simp] theorem branchIf_hi : (branchIf c s target).hi = s.hi := by cases c <;> rfl
@[simp] theorem branchIf_lo : (branchIf c s target).lo = s.lo := by cases c <;> rfl
@[simp] theorem branchIf_pcMin : (branchIf c s target).pcMin = s.pcMin := by cases c <;> rfl
@[simp] theorem branchIf_pcMax : (branchIf c s target).pcMax = s.pcMax := by cases c <;> rfl
@[simp] theorem branchIf_blocks : (branchIf c s target).blocks = s.blocks := by cases c <;> rfl
@[simp] theorem branchIf_mem : (branchIf c s target).mem = s.mem := by cases c <;> rfl
@[simp] theorem branchIf_input : (branchIf c s target).input = s.input := by cases c <;> rfl
@[simp] theorem branchIf_output : (branchIf c s target).output = s.output := by cases c <;> rfl
@[simp] theorem branchIf_params : (branchIf c s target).params = s.params := by cases c <;> rfl
end

/-! ## Reads keep everything but the input -/

/-- A read that answers leaves every field but the input as it was (R67). -/
theorem memRead_keeps {s s' : State} {a w : Word} {force : Bool} (h : memRead s a force = .ok (w, s')) :
    s' = { s with input := s'.input } := by
  rcases memRead_cases h with rfl | ⟨-, b, rest, -, rfl⟩ <;> rfl

/-- PC is valid exactly inside the window at a multiple of 4 (R25). -/
theorem pcValid_iff (s : State) (p : Word) :
    pcValid s p = true ↔ p.toNat % 4 = 0 ∧ s.pcMin.toNat ≤ p.toNat ∧ pcUpper s p = true := by
  simp [pcValid, and_assoc]

/-- From a state of the invariant a fetch changes nothing: PC is never the input port (R25, R111). -/
theorem fetch_of_inv {s s1 : State} {w : Word} (hi : Inv s) (hf : fetch s = .ok (w, s1)) : s1 = s := by
  obtain ⟨hv, hr⟩ := fetch_ok hf
  rcases memRead_cases hr with h | ⟨hp, -⟩
  · exact h
  · exfalso
    have hw := hi.window
    have hu := ((pcValid_iff s s.pc).1 hv).2.2
    unfold pcUpper at hu
    rw [hp] at hu
    simp [inputPort] at hu
    split at hu <;> simp at hu <;> omega

end Sys2Proof.Machine
end

