-- ==== Sys2Proof/Tests/Slice0.lean ====
section
/-! SUPPORT. The model's own tests: the WellFormed smoke test, a word of every instruction decoded, vectors of
95_test_vectors.md each one step, and for every statement with hypotheses a state that meets them. `V<n>` in a comment is
the vector the expected result comes from; a word without one is an example of the instruction's rule. -/

namespace Sys2Proof.Tests

open Sys2Proof.Machine

/-! ## WellFormed -/

/-- R103: a target with one of bits 20:6 set is no JAL target under `JAL_FIELD_CHECK`, and is one without it. -/
theorem test_jal_target_ill_formed :
    (Instr.jal 0x0000040#26).wellFormed Params.default = false ∧
    (Instr.jal 0x0100000#26).wellFormed Params.default = false ∧
    (Instr.jal 0x3E0003F#26).wellFormed Params.default = true ∧
    (Instr.jal 0x0000040#26).wellFormed { Params.default with jalFieldCheck := false } = true := by decide

/-- The decoder refuses the word of the ill-formed JAL and reads it when the check is off. -/
theorem test_ill_formed_word_refused :
    decode Params.default (encode (.jal 0x0000040#26)) = .error .reservedField ∧
    decode { Params.default with jalFieldCheck := false } (encode (.jal 0x0000040#26)) = .ok (.jal 0x0000040#26) :=
  ⟨rfl, rfl⟩

/-! ## Decoding: one word of every instruction -/

/-- The default decoder. -/
def reads (w : Word) : Option Instr := (decode Params.default w).toOption

/-- SLL $2,$3,4 bit by bit: op, rs, rt, rd, shamt, funct (R130). -/
theorem test_decode_r_format :
    reads (0b000000#6 ++ 0b00000#5 ++ 0b00011#5 ++ 0b00010#5 ++ 0b00100#5 ++ 0b000000#6) =
      some (.sll 2#5 3#5 4#5) := by decide

/-- ADDI $2,$3,-1 bit by bit: op, rs, rt, imm (R190). -/
theorem test_decode_i_format :
    reads (0b001000#6 ++ 0b00011#5 ++ 0b00010#5 ++ 0b1111111111111111#16) =
      some (.addi 2#5 3#5 0xFFFF#16) := by decide

/-- BGEZAL $0,3 bit by bit: op, rs, sub-opcode, imm (R230). -/
theorem test_decode_regimm_format :
    reads (0b000001#6 ++ 0b00000#5 ++ 0b10001#5 ++ 0b0000000000000011#16) =
      some (.bgezal 0#5 3#16) := by decide

/-- J 0x10000040 bit by bit: op, target (R231). -/
theorem test_decode_j_format :
    reads (0b000010#6 ++ 0b00000000000000000000010000#26) = some (.j 0x10#26) := by decide

/-- R130 to R135. -/
theorem test_decode_shifts :
    reads 0x00031100#32 = some (.sll 2#5 3#5 4#5) ∧ reads 0x00031102#32 = some (.srl 2#5 3#5 4#5) ∧
    reads 0x00031103#32 = some (.sra 2#5 3#5 4#5) ∧ reads 0x00831004#32 = some (.sllv 2#5 3#5 4#5) ∧
    reads 0x00831006#32 = some (.srlv 2#5 3#5 4#5) ∧ reads 0x00831007#32 = some (.srav 2#5 3#5 4#5) := by decide

/-- R150 to R153, R160, R161, R170, R171. -/
theorem test_decode_hilo :
    reads 0x00001010#32 = some (.mfhi 2#5) ∧ reads 0x00600011#32 = some (.mthi 3#5) ∧
    reads 0x00001012#32 = some (.mflo 2#5) ∧ reads 0x00600013#32 = some (.mtlo 3#5) ∧
    reads 0x00640018#32 = some (.mult 3#5 4#5) ∧ reads 0x00640019#32 = some (.multu 3#5 4#5) ∧
    reads 0x0064001A#32 = some (.div 3#5 4#5) ∧ reads 0x0064001B#32 = some (.divu 3#5 4#5) := by decide

/-- R181 to R189. -/
theorem test_decode_alu_register :
    reads 0x00641020#32 = some (.add 2#5 3#5 4#5) ∧ reads 0x00641021#32 = some (.addu 2#5 3#5 4#5) ∧
    reads 0x00641022#32 = some (.sub 2#5 3#5 4#5) ∧ reads 0x00641023#32 = some (.subu 2#5 3#5 4#5) ∧
    reads 0x00641024#32 = some (.and 2#5 3#5 4#5) ∧ reads 0x00641025#32 = some (.or 2#5 3#5 4#5) ∧
    reads 0x00641026#32 = some (.xor 2#5 3#5 4#5) ∧ reads 0x0064102A#32 = some (.slt 2#5 3#5 4#5) ∧
    reads 0x0064102B#32 = some (.sltu 2#5 3#5 4#5) := by decide

/-- R190 to R197. -/
theorem test_decode_alu_immediate :
    reads 0x2062FFFF#32 = some (.addi 2#5 3#5 0xFFFF#16) ∧ reads 0x2462FFFF#32 = some (.addiu 2#5 3#5 0xFFFF#16) ∧
    reads 0x2862FFFF#32 = some (.slti 2#5 3#5 0xFFFF#16) ∧ reads 0x2C62FFFF#32 = some (.sltiu 2#5 3#5 0xFFFF#16) ∧
    reads 0x3062FFFF#32 = some (.andi 2#5 3#5 0xFFFF#16) ∧ reads 0x34628000#32 = some (.ori 2#5 3#5 0x8000#16) ∧
    reads 0x3862FFFF#32 = some (.xori 2#5 3#5 0xFFFF#16) ∧ reads 0x3C028001#32 = some (.lui 2#5 0x8001#16) := by decide

/-- R225 to R236. -/
theorem test_decode_control :
    reads 0x03E00008#32 = some (.jr 31#5) ∧ reads 0x0080F809#32 = some (.jalr 31#5 4#5) ∧
    reads 0x04600003#32 = some (.bltz 3#5 3#16) ∧ reads 0x0461FFFF#32 = some (.bgez 3#5 0xFFFF#16) ∧
    reads 0x04700003#32 = some (.bltzal 3#5 3#16) ∧ reads 0x04110003#32 = some (.bgezal 0#5 3#16) ∧
    reads 0x08000010#32 = some (.j 0x10#26) ∧ reads 0x0C000010#32 = some (.jal 0x10#26) ∧
    reads 0x10640003#32 = some (.beq 3#5 4#5 3#16) ∧ reads 0x1464FFFC#32 = some (.bne 3#5 4#5 0xFFFC#16) ∧
    reads 0x18600003#32 = some (.blez 3#5 3#16) ∧ reads 0x1C600003#32 = some (.bgtz 3#5 3#16) := by decide

/-- R253 to R263. -/
theorem test_decode_loads_and_stores :
    reads 0x81020001#32 = some (.lb 2#5 1#16 8#5) ∧ reads 0x91020003#32 = some (.lbu 2#5 3#16 8#5) ∧
    reads 0x85020002#32 = some (.lh 2#5 2#16 8#5) ∧ reads 0x95020000#32 = some (.lhu 2#5 0#16 8#5) ∧
    reads 0x8D028000#32 = some (.lw 2#5 0x8000#16 8#5) ∧ reads 0x89020003#32 = some (.lwl 2#5 3#16 8#5) ∧
    reads 0x99020001#32 = some (.lwr 2#5 1#16 8#5) ∧ reads 0xA1030001#32 = some (.sb 3#5 1#16 8#5) ∧
    reads 0xA5030002#32 = some (.sh 3#5 2#16 8#5) ∧ reads 0xAD03FFFC#32 = some (.sw 3#5 0xFFFC#16 8#5) := by decide

/-- The reason a word is no instruction. -/
def reason (p : Params) (w : Word) : Option InvalidReason :=
  match decode p w with
  | .error r => some r
  | .ok _ => none

/-- V118, V199, V203, V208, V209, V96, V107, V131: words that are no instruction. -/
theorem test_decode_invalid :
    reason Params.default 0x04620003#32 = some .unknownRegimm ∧
    reason Params.default 0x00641027#32 = some .unknownFunct ∧
    reason Params.default 0x40000000#32 = some .unknownOpcode ∧
    reason Params.default 0xFFFFFFFF#32 = some .unknownOpcode ∧
    reason Params.default 0x00641064#32 = some .reservedField ∧
    reason Params.default 0x3C621234#32 = some .reservedField ∧
    reason Params.default 0x0081F809#32 = some .reservedField ∧
    reason Params.default 0x18610003#32 = some .reservedField := by decide

/-- V5, V6, V25, V26, V38, V39, V102, V103: fields ignored by default and required zero under
`STRICT_RESERVED_FIELDS`. -/
theorem test_decode_strict :
    reads 0x00A31100#32 = some (.sll 2#5 3#5 4#5) ∧ reads 0x00201010#32 = some (.mfhi 2#5) ∧
    reads 0x00641018#32 = some (.mult 3#5 4#5) ∧ reads 0x03E00808#32 = some (.jr 31#5) ∧
    reason { Params.default with strictReservedFields := true } 0x00A31100#32 = some .reservedField ∧
    reason { Params.default with strictReservedFields := true } 0x00201010#32 = some .reservedField ∧
    reason { Params.default with strictReservedFields := true } 0x00641018#32 = some .reservedField ∧
    reason { Params.default with strictReservedFields := true } 0x03E00808#32 = some .reservedField := by decide

/-- The host's view: the word of SW decodes, and a placed word is the one the next step runs (ORI $2,$0,7, V138). -/
theorem test_host_view :
    decodeTableWord 32 0xAD03FFFC = some (.sw 3#5 0xFFFC#16 8#5) ∧ decodeTableWord 32 0xFFFFFFFF = none ∧
    step (State.reset.withFetchWord 32 0x34020007) =
      .next { (State.reset.withFetchWord 32 0x34020007).setReg 2#5 7#32 with pc := 0x10000004#32 } :=
  ⟨by decide, by decide, rfl⟩

/-! ## Single steps -/

/-- The state of the vectors: the word at 0x10000010, PC there, and some registers set. -/
def placed (w : Word) (regs : List (RegNum × Word)) : State :=
  regs.foldl (fun s r => s.setReg r.1 r.2)
    (placeProgramWord { State.reset with pc := 0x10000010#32, pcMax := 0x10000040#32 } w)

/-- `placed` with the data words of R253's examples. -/
def withData (w : Word) (regs : List (RegNum × Word)) : State :=
  { placed w regs with
    mem := Memory.setWord (Memory.setWord (placed w regs).mem 0x20000000 0xAABBCCDD#32) 0x20000004 0x11223344#32 }

/-- Register `r` after the step, if it goes on. -/
def regAfter (s : State) (r : RegNum) : Option Word :=
  match step s with
  | .next t => some (t.reg r)
  | _ => none

/-- HI and LO after the step, if it goes on. -/
def hiLoAfter (s : State) : Option (Word × Word) :=
  match step s with
  | .next t => some (t.hi, t.lo)
  | _ => none

/-- PC and the pending target after the step, if it goes on. -/
def latchAfter (s : State) : Option (Word × Option Word) :=
  match step s with
  | .next t => some (t.pc, if t.jumped then some t.pcNext else none)
  | _ => none

/-- The word of storage at an address after the step, if it goes on. -/
def wordAfter (s : State) (a : Nat) : Option Word :=
  match step s with
  | .next t => some (Memory.getWord t.mem a)
  | _ => none

/-- The trap that ends the run in the step, if one does. -/
def trapOf (s : State) : Option Trap :=
  match step s with
  | .fault (.trap t _) => some t
  | _ => none

/-- V1, V9, V12, V14, V18, V19. -/
theorem test_shifts :
    regAfter (placed 0x00031100#32 [(3, 0x12345678#32)]) 2 = some 0x23456780#32 ∧
    regAfter (placed 0x000317C2#32 [(3, 0x80000000#32)]) 2 = some 1#32 ∧
    regAfter (placed 0x000317C3#32 [(3, 0x80000000#32)]) 2 = some 0xFFFFFFFF#32 ∧
    regAfter (placed 0x00831004#32 [(3, 0x12345678#32), (4, 0x24#32)]) 2 = some 0x23456780#32 ∧
    regAfter (placed 0x00831006#32 [(3, 0x87654321#32), (4, 0xFFFFFFFF#32)]) 2 = some 1#32 ∧
    regAfter (placed 0x00831007#32 [(3, 0x87654321#32), (4, 0xFFFFFFE8#32)]) 2 = some 0xFF876543#32 := by decide

/-- V23, V27, V29, V30. -/
theorem test_hilo_moves :
    regAfter { placed 0x00001010#32 [] with hi := 0xDEADBEEF#32 } 2 = some 0xDEADBEEF#32 ∧
    hiLoAfter (placed 0x00600011#32 [(3, 0x12345678#32)]) = some (0x12345678#32, 0#32) ∧
    regAfter { placed 0x00001012#32 [] with lo := 0xCAFEF00D#32 } 2 = some 0xCAFEF00D#32 ∧
    hiLoAfter (placed 0x00600013#32 [(3, 0x12345678#32)]) = some (0#32, 0x12345678#32) := by decide

/-- V32, V33, V40, V41. -/
theorem test_multiply :
    hiLoAfter (placed 0x00640018#32 [(3, 0xFFFFFFFE#32), (4, 3#32)]) = some (0xFFFFFFFF#32, 0xFFFFFFFA#32) ∧
    hiLoAfter (placed 0x00640018#32 [(3, 0x80000000#32), (4, 0x80000000#32)]) = some (0x40000000#32, 0#32) ∧
    hiLoAfter (placed 0x00640019#32 [(3, 0xFFFFFFFE#32), (4, 3#32)]) = some (2#32, 0xFFFFFFFA#32) ∧
    hiLoAfter (placed 0x00640019#32 [(3, 0xFFFFFFFF#32), (4, 0xFFFFFFFF#32)]) = some (0xFFFFFFFE#32, 1#32) := by
  decide

/-- V43, V44, V48, V53, V56, V57. -/
theorem test_divide :
    hiLoAfter (placed 0x0064001A#32 [(3, 0xFFFFFFF9#32), (4, 2#32)]) = some (0xFFFFFFFF#32, 0xFFFFFFFD#32) ∧
    hiLoAfter (placed 0x0064001A#32 [(3, 7#32), (4, 0xFFFFFFFE#32)]) = some (1#32, 0xFFFFFFFD#32) ∧
    hiLoAfter { placed 0x0060001A#32 [(3, 5#32)] with hi := 0x11#32, lo := 0x22#32 } = some (0x11#32, 0x22#32) ∧
    hiLoAfter (placed 0x0064001B#32 [(3, 0xFFFFFFF9#32), (4, 2#32)]) = some (1#32, 0x7FFFFFFC#32) ∧
    hiLoAfter { placed 0x0060001B#32 [(3, 3#32)] with hi := 0x11#32, lo := 0x22#32 } = some (0x11#32, 0x22#32) ∧
    hiLoAfter (placed 0x0064001B#32 [(3, 0x80000000#32), (4, 0xFFFFFFFF#32)]) = some (0x80000000#32, 0#32) := by
  decide

/-- The state of V49: DIV's overflow case. -/
def divOverflowState : State := placed 0x0064001A#32 [(3, 0x80000000#32), (4, 0xFFFFFFFF#32)]

/-- V49, V50: DIV's overflow case under both values of `DIV_OVERFLOW`. -/
theorem test_divide_overflow :
    step divOverflowState =
      .fault (.undefined .divOverflow { divOverflowState with pc := 0x10000014#32 }) ∧
    hiLoAfter { divOverflowState with params := { Params.default with divOverflow := .wrap } } =
      some (0#32, 0x80000000#32) := ⟨rfl, by decide⟩

/-- V59, V60, V61, V62, V67, V68, V69: the overflow tests of ADD and SUB. -/
theorem test_add_sub_overflow :
    trapOf (placed 0x00641020#32 [(3, 0x7FFFFFFF#32), (4, 1#32)]) = some .overflow ∧
    trapOf (placed 0x00641020#32 [(3, 0x80000000#32), (4, 0xFFFFFFFF#32)]) = some .overflow ∧
    regAfter (placed 0x00641020#32 [(3, 0x7FFFFFFF#32), (4, 0x80000000#32)]) 2 = some 0xFFFFFFFF#32 ∧
    trapOf (placed 0x00640020#32 [(3, 0x7FFFFFFF#32), (4, 1#32)]) = some .overflow ∧
    trapOf (placed 0x00641022#32 [(3, 0x80000000#32), (4, 1#32)]) = some .overflow ∧
    trapOf (placed 0x00641022#32 [(4, 0x80000000#32)]) = some .overflow ∧
    regAfter (placed 0x00641022#32 [(3, 0xFFFFFFFF#32), (4, 0x80000000#32)]) 2 = some 0x7FFFFFFF#32 := by decide

/-- V65, V70, V71, V72, V73, V75, V76, V78, V79. -/
theorem test_alu_register :
    regAfter (placed 0x00641021#32 [(3, 0xFFFFFFFF#32), (4, 2#32)]) 2 = some 1#32 ∧
    regAfter (placed 0x00641023#32 [(4, 1#32)]) 2 = some 0xFFFFFFFF#32 ∧
    regAfter (placed 0x00641024#32 [(3, 0xFF00FF00#32), (4, 0x0FF00FF0#32)]) 2 = some 0x0F000F00#32 ∧
    regAfter (placed 0x00641025#32 [(3, 0xFF00FF00#32), (4, 0x0FF00FF0#32)]) 2 = some 0xFFF0FFF0#32 ∧
    regAfter (placed 0x00641026#32 [(3, 0xFF00FF00#32), (4, 0x0FF00FF0#32)]) 2 = some 0xF0F0F0F0#32 ∧
    regAfter (placed 0x0064102A#32 [(3, 0xFFFFFFFF#32), (4, 1#32)]) 2 = some 1#32 ∧
    regAfter (placed 0x0064102A#32 [(3, 1#32), (4, 0xFFFFFFFF#32)]) 2 = some 0#32 ∧
    regAfter (placed 0x0064102B#32 [(3, 0xFFFFFFFF#32), (4, 1#32)]) 2 = some 0#32 ∧
    regAfter (placed 0x0064102B#32 [(3, 1#32), (4, 0xFFFFFFFF#32)]) 2 = some 1#32 := by decide

/-- V81, V82, V83, V86, V87, V91, V92, V93, V94, V95. -/
theorem test_alu_immediate :
    regAfter (placed 0x2062FFFF#32 [(3, 5#32)]) 2 = some 4#32 ∧
    trapOf (placed 0x20620001#32 [(3, 0x7FFFFFFF#32)]) = some .overflow ∧
    trapOf (placed 0x2062FFFF#32 [(3, 0x80000000#32)]) = some .overflow ∧
    regAfter (placed 0x2462FFFF#32 []) 2 = some 0xFFFFFFFF#32 ∧
    regAfter (placed 0x2862FFFF#32 [(3, 0x80000000#32)]) 2 = some 1#32 ∧
    regAfter (placed 0x2C628000#32 [(3, 0xFFFF7FFF#32)]) 2 = some 1#32 ∧
    regAfter (placed 0x3062FFFF#32 [(3, 0x12345678#32)]) 2 = some 0x5678#32 ∧
    regAfter (placed 0x34628000#32 [(3, 0x12340000#32)]) 2 = some 0x12348000#32 ∧
    regAfter (placed 0x3862FFFF#32 [(3, 0xFFFFFFFF#32)]) 2 = some 0xFFFF0000#32 ∧
    regAfter (placed 0x3C028000#32 []) 2 = some 0x80000000#32 := by decide

/-- V98, V105, V120, V121. -/
theorem test_jumps :
    latchAfter (placed 0x03E00008#32 [(31, 0x10000100#32)]) = some (0x10000014#32, some 0x10000100#32) ∧
    latchAfter (placed 0x00802009#32 [(4, 0x10000100#32)]) = some (0x10000014#32, some 0x10000100#32) ∧
    regAfter (placed 0x00802009#32 [(4, 0x10000100#32)]) 4 = some 0x10000018#32 ∧
    latchAfter (placed 0x08FFFFFF#32 []) = some (0x10000014#32, some 0x13FFFFFC#32) ∧
    latchAfter (placed 0x0C000010#32 []) = some (0x10000014#32, some 0x10000040#32) ∧
    regAfter (placed 0x0C000010#32 []) 31 = some 0x10000018#32 := by decide

/-- V109, V110, V111, V113, V115, V117. -/
theorem test_regimm_branches :
    latchAfter (placed 0x04600003#32 []) = some (0x10000014#32, none) ∧
    latchAfter (placed 0x04600003#32 [(3, 0x80000000#32)]) = some (0x10000014#32, some 0x10000020#32) ∧
    latchAfter (placed 0x0461FFFF#32 []) = some (0x10000014#32, some 0x10000010#32) ∧
    regAfter (placed 0x04700003#32 [(3, 1#32)]) 31 = some 0x10000018#32 ∧
    latchAfter (placed 0x07F00003#32 [(31, 0xFFFFFFFF#32)]) = some (0x10000014#32, some 0x10000020#32) ∧
    latchAfter (placed 0x04710003#32 [(3, 0x80000000#32)]) = some (0x10000014#32, none) := by decide

/-- V125, V126, V127, V128, V129, V130, V133, V134. -/
theorem test_compare_branches :
    latchAfter (placed 0x10640003#32 [(3, 5#32), (4, 6#32)]) = some (0x10000014#32, none) ∧
    latchAfter (placed 0x10008000#32 []) = some (0x10000014#32, some 0x0FFE0014#32) ∧
    latchAfter (placed 0x1464FFFC#32 [(3, 5#32), (4, 6#32)]) = some (0x10000014#32, some 0x10000004#32) ∧
    latchAfter (placed 0x1463FFFC#32 [(3, 5#32)]) = some (0x10000014#32, none) ∧
    latchAfter (placed 0x18600003#32 []) = some (0x10000014#32, some 0x10000020#32) ∧
    latchAfter (placed 0x18600003#32 [(3, 1#32)]) = some (0x10000014#32, none) ∧
    latchAfter (placed 0x1C600003#32 [(3, 1#32)]) = some (0x10000014#32, some 0x10000020#32) ∧
    latchAfter (placed 0x1C600003#32 [(3, 0x80000000#32)]) = some (0x10000014#32, none) := by decide

/-- A state whose step is the delay slot of a transfer to `t`. -/
def slotOf (w t : Word) : State := { placed w [] with jumped := true, pcNext := t }

/-- V135, V136, V137, V138: the slot. -/
theorem test_delay_slot :
    trapOf (slotOf 0x10000001#32 0x10000040#32) = some (.invalid .delaySlotBranch) ∧
    latchAfter { slotOf 0x10000001#32 0x10000040#32 with
      params := { Params.default with delaySlotBranch := .latch } } = some (0x10000040#32, some 0x10000044#32) ∧
    trapOf (slotOf 0x0C000040#32 0x10000040#32) = some (.invalid .reservedField) ∧
    latchAfter (slotOf 0x34020007#32 0x10000040#32) = some (0x10000040#32, none) := by decide

/-- V139: the slot of a transfer to 0 runs, then the run ends with the low byte of register 2. -/
theorem test_exit :
    step (slotOf 0x34020007#32 0#32) =
      .fault (.exit 7#8 { (slotOf 0x34020007#32 0#32).setReg 2#5 7#32 with pc := 0#32, jumped := false }) := rfl

/-- V141, V144, V147, V150, V151, V152, V154. -/
theorem test_loads :
    regAfter (withData 0x81020001#32 [(8, 0x20000000#32)]) 2 = some 0xFFFFFFBB#32 ∧
    regAfter (withData 0x91020003#32 [(8, 0x20000000#32)]) 2 = some 0xDD#32 ∧
    regAfter (withData 0x85020002#32 [(8, 0x20000000#32)]) 2 = some 0xFFFFCCDD#32 ∧
    regAfter (withData 0x95020000#32 [(8, 0x20000000#32)]) 2 = some 0xAABB#32 ∧
    trapOf (withData 0x95020003#32 [(8, 0x20000000#32)]) = some (.memory .misaligned) ∧
    regAfter (withData 0x8D020004#32 [(8, 0x20000000#32)]) 2 = some 0x11223344#32 ∧
    trapOf (withData 0x8D020002#32 [(8, 0x20000000#32)]) = some (.memory .misaligned) ∧
    regAfter (placed 0x8D020004#32 [(2, 5#32), (8, 0xFFFFFFFC#32)]) 2 = some 0#32 := by decide

/-- V157, V159, V160, V162. -/
theorem test_lwl_lwr :
    regAfter (withData 0x89020001#32 [(8, 0x20000000#32), (2, 0x55667788#32)]) 2 = some 0xBBCCDD88#32 ∧
    regAfter (withData 0x89020003#32 [(8, 0x20000000#32), (2, 0x55667788#32)]) 2 = some 0xDD667788#32 ∧
    regAfter (withData 0x99020000#32 [(8, 0x20000000#32), (2, 0x55667788#32)]) 2 = some 0x556677AA#32 ∧
    regAfter (withData 0x99020002#32 [(8, 0x20000000#32), (2, 0x55667788#32)]) 2 = some 0x55AABBCC#32 := by decide

/-- V165, V169, V171, V173, V187, V193, V196. -/
theorem test_stores :
    wordAfter (withData 0xA1030001#32 [(8, 0x20000000#32), (3, 0x123456EE#32)]) 0x20000000 = some 0xAAEECCDD#32 ∧
    wordAfter (withData 0xA5030002#32 [(8, 0x20000000#32), (3, 0x1234BEEF#32)]) 0x20000000 = some 0xAABBBEEF#32 ∧
    wordAfter (withData 0xAD030004#32 [(8, 0x20000000#32), (3, 0xCAFEBABE#32)]) 0x20000004 = some 0xCAFEBABE#32 ∧
    trapOf (withData 0xAD03FFFC#32 [(8, 0x20000000#32), (3, 0xCAFEBABE#32)]) = some (.memory .badAddress) ∧
    trapOf (placed 0xAC030000#32 [(3, 1#32)]) = some (.memory .permission) ∧
    trapOf (placed 0xAD030000#32 [(8, 0x10000000#32), (3, 1#32)]) = some (.memory .permission) ∧
    trapOf (placed 0xAD030000#32 [(8, 0x24000000#32), (3, 1#32)]) = some (.memory .badAddress) := by decide

/-- The input bytes left after a step, whichever way it ends. -/
def inputAfter (s : State) : List Byte :=
  match step s with
  | .next t => t.input
  | .fault (.trap _ t) => t.input
  | _ => []

/-- The output after the step, if it goes on. -/
def outputAfter (s : State) : Option (List Byte) :=
  match step s with
  | .next t => some t.output
  | _ => none

/-- V174, V177, V179, V180, V184: the ports ("xy" is the bytes 0x78, 0x79). -/
theorem test_ports :
    outputAfter (placed 0xAD030004#32 [(8, 0x30000000#32), (3, 0x141#32)]) = some [0x41#8] ∧
    trapOf { placed 0xA1030003#32 [(8, 0x30000000#32)] with input := [0x78#8, 0x79#8] } =
      some (.memory .badAddress) ∧
    inputAfter { placed 0xA1030003#32 [(8, 0x30000000#32)] with input := [0x78#8, 0x79#8] } = [0x79#8] ∧
    regAfter (placed 0x8D020000#32 [(8, 0x30000000#32)]) 2 = some 0xFFFFFFFF#32 ∧
    regAfter { placed 0x91020003#32 [(8, 0x30000000#32)] with input := [0x78#8, 0x79#8] } 2 = some 0x78#32 ∧
    trapOf (placed 0x8D020004#32 [(8, 0x30000000#32)]) = some (.memory .badAddress) := by decide

/-- An image of NOPs with PC at `p` and PCMax `m`. -/
def fetchAt (p m : Word) : State := { State.reset with pc := p, pcMax := m }

/-- V212, V213, V214, V215, V216, V218: the fetch window. -/
theorem test_fetch_window :
    latchAfter (fetchAt 0x10000040#32 0x10000040#32) = some (0x10000044#32, none) ∧
    trapOf { fetchAt 0x10000040#32 0x10000040#32 with params := { Params.default with pcLimitMode := .strict } } =
      some (.memory .badPC) ∧
    trapOf (fetchAt 0x10000044#32 0x10000040#32) = some (.memory .badPC) ∧
    trapOf (fetchAt 0x0FFFFFFC#32 0x10000040#32) = some (.memory .badPC) ∧
    trapOf (fetchAt 0x10000002#32 0x10000040#32) = some (.memory .badPC) ∧
    trapOf (fetchAt 0x11000000#32 0x11000000#32) = some (.memory .badAddress) := by decide

/-- V219, V221, V223: the loader. -/
theorem test_launch :
    launch Params.default [] [] = .next State.reset ∧
    launch Params.default [0x34#8, 0x02#8, 0x00#8, 0x05#8, 0x00#8, 0x00#8] [] = .refused .imageNotWordMultiple ∧
    launch Params.default [0x34#8, 0x02#8, 0x00#8, 0x05#8, 0x00#8, 0x00#8, 0x00#8, 0x08#8] [] =
      .next { State.reset with
        pcMax := 0x10000008#32
        mem := [(0x10000000, 0x34#8), (0x10000001, 0x02#8), (0x10000003, 0x05#8), (0x10000007, 0x08#8)] } :=
  ⟨rfl, rfl, rfl⟩

/-! ## Witnesses: for each statement with hypotheses, inputs that meet them, every clause at its boundaries -/

/-- LaunchLoadsTheImageOrRefuses: a bad length, the shortest image too long, the empty and the longest image. -/
theorem witness_launch :
    [0x34#8].length % 4 ≠ 0 ∧
    ((List.replicate 0x01000004 0#8).length % 4 = 0 ∧ 0x01000000 < (List.replicate 0x01000004 0#8).length) ∧
    (([] : List Byte).length % 4 = 0 ∧ ([] : List Byte).length ≤ 0x01000000) ∧
    ((List.replicate 0x01000000 0#8).length % 4 = 0 ∧ (List.replicate 0x01000000 0#8).length ≤ 0x01000000) ∧
    Params.default.legal = true := by
  simp only [List.length_replicate]
  decide

/-- The conditions of StepRunsTheDecodedInstruction on a state and an instruction. -/
def runs (s : State) (i : Instr) : Prop :=
  s.blocks = standardLayout ∧ pcValid s s.pc = true ∧ 0x10000000 ≤ s.pc.toNat ∧ s.pc.toNat < 0x11000000 ∧
    decode s.params (s.byte s.pc.toNat ++ s.byte (s.pc.toNat + 1) ++ s.byte (s.pc.toNat + 2) ++
      s.byte (s.pc.toNat + 3)) = .ok i ∧
    (s.jumped = true → isControlTransfer i = true → s.params.delaySlotBranch = .latch)

/-- StepRunsTheDecodedInstruction: after reset, at the last word of instruction memory, and for a transfer in a slot
under `Latch`. -/
theorem witness_step_runs :
    runs (State.reset.withFetchWord 32 0x34020007) (.ori 2#5 0#5 7#16) ∧
    runs (fetchAt 0x10FFFFFC#32 0x11000000#32) (.sll 0#5 0#5 0#5) ∧
    runs { slotOf 0x10000001#32 0x10000040#32 with params := { Params.default with delaySlotBranch := .latch } }
      (.beq 0#5 0#5 1#16) :=
  ⟨⟨rfl, by decide, by decide, by decide, rfl, by decide⟩, ⟨rfl, by decide, by decide, by decide, rfl, by decide⟩,
    ⟨rfl, by decide, by decide, by decide, rfl, by decide⟩⟩

/-- StepTrapsWhenTheFetchFails: PC misaligned, one word below and one above the window, past it under `Strict`, and the
address above a full image. -/
theorem witness_fetch_fails :
    ([0x10000002#32, 0x0FFFFFFC#32, 0x10000044#32].all fun p => decide (let s := fetchAt p 0x10000040#32;
      s.params.pcLimitMode = .inclusive ∧
        ¬(s.pc.toNat % 4 = 0 ∧ s.pcMin.toNat ≤ s.pc.toNat ∧ s.pc.toNat ≤ s.pcMax.toNat))) = true ∧
    (let s := { fetchAt 0x10000040#32 0x10000040#32 with params := { Params.default with pcLimitMode := .strict } };
      s.params.pcLimitMode = .strict ∧
        ¬(s.pc.toNat % 4 = 0 ∧ s.pcMin.toNat ≤ s.pc.toNat ∧ s.pc.toNat + 4 ≤ s.pcMax.toNat)) ∧
    (let s := fetchAt 0x11000000#32 0x11000000#32;
      s.params.pcLimitMode = .inclusive ∧ s.blocks = standardLayout ∧ s.pcMin = 0x10000000#32 ∧
        s.pcMax = 0x11000000#32 ∧ s.pc = 0x11000000#32) := by decide

/-- InvalidWordEndsTheRun. -/
theorem witness_invalid_word :
    fetch (placed 0xFFFFFFFF#32 []) = .ok (0xFFFFFFFF#32, placed 0xFFFFFFFF#32 []) ∧
    decode (placed 0xFFFFFFFF#32 []).params 0xFFFFFFFF#32 = .error .unknownOpcode := ⟨rfl, rfl⟩

/-- TransferInDelaySlotTrapsOrRuns, a transfer not taken under each policy. -/
theorem witness_transfer_in_slot :
    let s := slotOf 0x14000001#32 0x10000040#32
    (fetch s = .ok (0x14000001#32, s) ∧ decode s.params 0x14000001#32 = .ok (.bne 0#5 0#5 1#16) ∧
      isControlTransfer (.bne 0#5 0#5 1#16) = true ∧ s.jumped = true ∧ s.params.delaySlotBranch = .trap) ∧
    (let t := { s with params := { Params.default with delaySlotBranch := .latch } };
      fetch t = .ok (0x14000001#32, t) ∧ t.params.delaySlotBranch = .latch) := ⟨⟨rfl, rfl, rfl, rfl, rfl⟩, rfl, rfl⟩

/-- A state of the invariant with a word placed and some registers set; the other witnesses start from it. -/
theorem placed_inv (w : Word) (regs : List (RegNum × Word)) (jumped : Bool) (t : Word) (input : List Byte)
    (hm : Memory.wf (placed w regs).mem = true)
    (hb : ∀ c ∈ (placed w regs).mem, Backed c.1)
    (hz : ∀ a, a < 4 → (placed w regs).byte a = 0#8)
    (hf : (placed w regs).blocks = standardLayout ∧ (placed w regs).pcMin = 0x10000000#32 ∧
      (placed w regs).pcMax = 0x10000040#32 ∧ (placed w regs).params = Params.default ∧
      (placed w regs).pc = 0x10000010#32) :
    Inv { placed w regs with jumped := jumped, pcNext := t, input := input } where
  memWf := hm
  backed := hb
  sentinelZero := hz
  layout := hf.1
  window := ⟨hf.2.1, by simp [hf.2.2.1], by simp [hf.2.2.1]⟩
  legal := by simp [hf.2.2.2.1]; rfl
  running := by simp [hf.2.2.2.2]

/-- ExitIsTheSlotOfATransferToZero: ORI $2,$0,7 in the slot of a JR $0. -/
theorem witness_exit :
    Inv (slotOf 0x34020007#32 0#32) ∧
    (∃ u, step (slotOf 0x34020007#32 0#32) = .fault (.exit 7#8 u)) ∧
    fetch (slotOf 0x34020007#32 0#32) = .ok (0x34020007#32, slotOf 0x34020007#32 0#32) ∧
    decode (slotOf 0x34020007#32 0#32).params 0x34020007#32 = .ok (.ori 2#5 0#5 7#16) ∧
    isControlTransfer (.ori 2#5 0#5 7#16) = false ∧ (slotOf 0x34020007#32 0#32).jumped = true ∧
    (slotOf 0x34020007#32 0#32).pcNext = 0#32 ∧
    (∃ u, exec (.ori 2#5 0#5 7#16) (advance (slotOf 0x34020007#32 0#32)) = .next u) :=
  ⟨placed_inv _ _ true 0#32 [] (by decide) (by decide) (by decide) (by decide), ⟨_, rfl⟩, rfl, rfl, rfl, rfl, rfl,
    ⟨_, rfl⟩⟩

/-- PcFollowsTheLatch: a taken transfer, then its slot. -/
theorem witness_pc_follows :
    ∃ t u, step (placed 0x08000010#32 []) = .next t ∧ step t = .next u ∧ t.jumped = true := ⟨_, _, rfl, rfl, rfl⟩

/-- NoInstructionWritesPcOrTheFixedState, RegistersChangeOnlyAtTheDestination, OnlyStoresChangeMemory and
HiLoChangeOnlyByTheirInstructions. -/
theorem witness_frames :
    (∃ t, exec (.addu 2#5 3#5 4#5) State.reset = .next t) ∧ destReg (.addu 2#5 3#5 4#5) ≠ some 3#5 ∧
    isStore (.addu 2#5 3#5 4#5) = false ∧ mayWriteHiLo (.addu 2#5 3#5 4#5) = false ∧
    (∃ t, exec (.mthi 3#5) State.reset = .next t) ∧ (∃ t, exec (.mtlo 3#5) State.reset = .next t) ∧
    State.reset.reg 4#5 = 0#32 ∧ (∃ t, exec (.div 3#5 4#5) State.reset = .next t) ∧
    (∃ t, exec (.divu 3#5 4#5) State.reset = .next t) :=
  ⟨⟨_, rfl⟩, by decide, rfl, rfl, ⟨_, rfl⟩, ⟨_, rfl⟩, rfl, ⟨_, rfl⟩, ⟨_, rfl⟩⟩

/-- RegisterPortsKeepRegisterZero and LwlLwrPairLoadsTheUnalignedWord: a register that is not 0, and another. -/
theorem witness_registers : (31#5 : RegNum) ≠ 0#5 ∧ (0#5 : RegNum) ≠ 31#5 ∧ (1#5 : RegNum) ≠ 0#5 := by decide

/-- The clauses on the words of SPECIAL: a word of each function. -/
theorem witness_special_words :
    ([(0x00031100#32, 0x00#6), (0x00031102#32, 0x02#6), (0x00031103#32, 0x03#6), (0x00831004#32, 0x04#6),
        (0x00831006#32, 0x06#6), (0x00831007#32, 0x07#6), (0x03E00008#32, 0x08#6), (0x0080F809#32, 0x09#6),
        (0x00001010#32, 0x10#6), (0x00600011#32, 0x11#6), (0x00001012#32, 0x12#6), (0x00600013#32, 0x13#6),
        (0x00640018#32, 0x18#6), (0x00640019#32, 0x19#6), (0x0064001A#32, 0x1A#6), (0x0064001B#32, 0x1B#6)].all fun c =>
      decide (fieldOp c.1 = 0#6 ∧ fieldFunct c.1 = c.2)) = true ∧
    ([(0x00641020#32, 0x20#6), (0x00641021#32, 0x21#6), (0x00641022#32, 0x22#6), (0x00641023#32, 0x23#6),
        (0x00641024#32, 0x24#6), (0x00641025#32, 0x25#6), (0x00641026#32, 0x26#6), (0x0064102A#32, 0x2A#6),
        (0x0064102B#32, 0x2B#6)].all fun c => decide (fieldOp c.1 = 0#6 ∧ fieldFunct c.1 = c.2)) = true := by decide

/-- The clauses on the words of REGIMM and of the primary opcodes. -/
theorem witness_other_words :
    ([(0x04600003#32, 0x00#5), (0x0461FFFF#32, 0x01#5), (0x04700003#32, 0x10#5), (0x04110003#32, 0x11#5)].all fun c =>
      decide (fieldOp c.1 = 1#6 ∧ fieldRt c.1 = c.2)) = true ∧
    ([(0x08000010#32, 0x02#6), (0x0C000010#32, 0x03#6), (0x10640003#32, 0x04#6), (0x1464FFFC#32, 0x05#6),
        (0x18600003#32, 0x06#6), (0x1C600003#32, 0x07#6), (0x2062FFFF#32, 0x08#6), (0x2462FFFF#32, 0x09#6),
        (0x2862FFFF#32, 0x0A#6), (0x2C62FFFF#32, 0x0B#6), (0x3062FFFF#32, 0x0C#6), (0x34628000#32, 0x0D#6),
        (0x3862FFFF#32, 0x0E#6), (0x3C028001#32, 0x0F#6)].all fun c => decide (fieldOp c.1 = c.2)) = true ∧
    ([(0x81020001#32, 0x20#6), (0x85020002#32, 0x21#6), (0x89020003#32, 0x22#6), (0x8D028000#32, 0x23#6),
        (0x91020003#32, 0x24#6), (0x95020000#32, 0x25#6), (0x99020001#32, 0x26#6), (0xA1030001#32, 0x28#6),
        (0xA5030002#32, 0x29#6), (0xAD03FFFC#32, 0x2B#6)].all fun c => decide (fieldOp c.1 = c.2)) = true := by decide

/-- The state after reset with registers 3 and 4 set. -/
def operands (a b : Word) : State := (State.reset.setReg 3#5 a).setReg 4#5 b

/-- DivideSigned and DivideUnsigned: a zero divisor, the overflow case under each value, an ordinary division. -/
theorem witness_divide :
    (operands 5#32 0#32).reg 4#5 = 0#32 ∧
    ((operands 0x80000000#32 0xFFFFFFFF#32).reg 3#5 = 0x80000000#32 ∧
      (operands 0x80000000#32 0xFFFFFFFF#32).reg 4#5 = 0xFFFFFFFF#32) ∧
    State.reset.params.divOverflow = .fault ∧
    { Params.default with divOverflow := .wrap }.divOverflow = .wrap ∧
    ((operands 0x80000000#32 1#32).reg 4#5 ≠ 0#32 ∧
      ¬((operands 0x80000000#32 1#32).reg 3#5 = 0x80000000#32 ∧
        (operands 0x80000000#32 1#32).reg 4#5 = 0xFFFFFFFF#32)) := by decide

/-- AddAndSubTrapExactlyOnOverflow and AddiTrapsExactlyOnOverflow: the greatest sum that fits and the least that does not,
and the same below. -/
theorem witness_overflow :
    (let s := operands 0x7FFFFFFF#32 0#32; FitsWord ((s.reg 3#5).toInt + (s.reg 4#5).toInt)) ∧
    (let s := operands 0x7FFFFFFF#32 1#32; ¬FitsWord ((s.reg 3#5).toInt + (s.reg 4#5).toInt)) ∧
    (let s := operands 0x80000000#32 0#32; FitsWord ((s.reg 3#5).toInt - (s.reg 4#5).toInt)) ∧
    (let s := operands 0x80000000#32 1#32; ¬FitsWord ((s.reg 3#5).toInt - (s.reg 4#5).toInt)) ∧
    (let s := operands 0x7FFFFFFE#32 0#32; FitsWord ((s.reg 3#5).toInt + (1#16 : Imm).toInt)) ∧
    (let s := operands 0x80000000#32 0#32; ¬FitsWord ((s.reg 3#5).toInt + (0xFFFF#16 : Imm).toInt)) := by decide

/-- OverflowOnlyByAddSubAddi: each of the three. -/
theorem witness_overflow_raised :
    exec (.add 2#5 3#5 4#5) (operands 0x7FFFFFFF#32 1#32) = .fault (.trap .overflow (operands 0x7FFFFFFF#32 1#32)) ∧
    exec (.sub 2#5 3#5 4#5) (operands 0x80000000#32 1#32) = .fault (.trap .overflow (operands 0x80000000#32 1#32)) ∧
    exec (.addi 2#5 3#5 1#16) (operands 0x7FFFFFFF#32 0#32) =
      .fault (.trap .overflow (operands 0x7FFFFFFF#32 0#32)) := ⟨rfl, rfl, rfl⟩

/-- Conditions on a bit number below 32 (the logic statements). -/
theorem witness_bit_number : (0 : Nat) < 32 ∧ 31 < 32 := by decide

/-- The state after reset with an address in register 8. -/
def addressed (a : Word) : State := State.reset.setReg 8#5 a

/-- The address that `imm($8)` with `imm = 0` gives in `addressed a`. -/
def addressOf (a : Word) : Nat := (effAddr (addressed a) 0#16 8#5).toNat

/-- ByteAndHalfLoadsReadTheirBytes, WordLoadReadsFourBytes and LoadWordLeftAndRightMerge: the ends of each Block. -/
theorem witness_backed :
    ([0#32, 3#32, 0x10000000#32, 0x10FFFFFF#32, 0x20000000#32, 0x23FFFFFF#32].all fun a =>
      decide ((addressed a).blocks = standardLayout ∧ Backed (addressOf a))) = true ∧
    ([2#32, 0x10FFFFFE#32, 0x23FFFFFE#32].all fun a => decide (Backed (addressOf a) ∧ addressOf a % 2 = 0)) = true ∧
    ([0#32, 0x10FFFFFC#32, 0x23FFFFFC#32].all fun a =>
      decide (Backed (addressOf a) ∧ addressOf a % 4 = 0)) = true := by decide

/-- LwlLwrPairLoadsTheUnalignedWord: LWL $2,0($8) and LWR $2,3($8) at an unaligned word and at the last word
of data memory. -/
theorem witness_lwl_lwr_pair :
    ([0x20000001#32, 0x23FFFFFC#32].all fun a => decide (Backed (addressOf a) ∧ Backed (addressOf a + 3))) = true ∧
    exec (.lwl 2#5 0#16 8#5) (addressed 0x20000001#32) = .next (addressed 0x20000001#32) ∧
    (effAddr (addressed 0x20000001#32) 3#16 8#5).toNat = addressOf 0x20000001#32 + 3 :=
  ⟨by decide, rfl, by decide⟩

/-- LoadsOutsideTheBlocksTrap: the ends of each gap, the output port, the top of the space. -/
theorem witness_unbacked :
    ([5#32, 0x0FFFFFFF#32, 0x11000000#32, 0x1FFFFFFF#32, 0x24000000#32, 0x2FFFFFFF#32, 0x30000007#32,
        0xFFFFFFFF#32].all fun a => decide (¬Backed (addressOf a) ∧ ¬InInputWord (addressOf a))) = true ∧
    ([6#32, 0x2FFFFFFE#32, 0x30000006#32].all fun a =>
      decide (¬Backed (addressOf a) ∧ ¬InInputWord (addressOf a) ∧ addressOf a % 2 = 0)) = true ∧
    ([4#32, 0x2FFFFFFC#32, 0x30000004#32].all fun a =>
      decide (¬Backed (addressOf a) ∧ ¬InInputWord (addressOf a) ∧ addressOf a % 4 = 0)) = true := by decide

/-- LoadsFromTheInputPortConsumeOneByte: the first and the last address of the port's word. -/
theorem witness_input_port :
    InInputWord (addressOf 0x30000003#32) ∧
    (InInputWord (addressOf 0x30000002#32) ∧ addressOf 0x30000002#32 % 2 = 0) ∧
    (InInputWord (addressOf 0x30000000#32) ∧ addressOf 0x30000000#32 % 4 = 0) := by decide

/-- MisalignedAccessesTrap. -/
theorem witness_misaligned : addressOf 0x20000001#32 % 2 ≠ 0 ∧ addressOf 0x20000002#32 % 4 ≠ 0 := by decide

/-- SubWordStoresChangeOnlyTheirBytes, WordStoreWritesOrEmits and LoadReturnsWhatTheStoreLeft: the ends of data memory
and the output port. -/
theorem witness_stores :
    ([0x20000000#32, 0x23FFFFFF#32].all fun a => decide ((addressed a).blocks = standardLayout ∧
      Memory.wf (addressed a).mem = true ∧ InData (addressOf a))) = true ∧
    (InData (addressOf 0x23FFFFFE#32) ∧ addressOf 0x23FFFFFE#32 % 2 = 0) ∧
    (InData (addressOf 0x23FFFFFC#32) ∧ addressOf 0x23FFFFFC#32 % 4 = 0) ∧
    effAddr (addressed 0x30000004#32) 0#16 8#5 = 0x30000004#32 := by decide

/-- StoresToReadOnlyBlocksTrap: the ends of both Blocks. -/
theorem witness_read_only :
    ([0#32, 3#32, 0x10000000#32, 0x10FFFFFF#32].all fun a => decide (InReadOnly (addressOf a))) = true ∧
    (InReadOnly (addressOf 0x10FFFFFE#32) ∧ addressOf 0x10FFFFFE#32 % 2 = 0) ∧
    (InReadOnly (addressOf 0x10FFFFFC#32) ∧ addressOf 0x10FFFFFC#32 % 4 = 0) := by decide

/-- StoresOutsideTheBlocksTrap: the output port's word, the input port's word, a word store at each side of them. -/
theorem witness_stores_outside :
    ([0x30000004#32, 0x30000006#32].all fun a =>
      decide (¬Backed (addressOf a) ∧ ¬InInputWord (addressOf a) ∧ addressOf a % 2 = 0)) = true ∧
    ([0x30000000#32, 0x30000002#32].all fun a =>
      decide (¬Backed (addressOf a) ∧ InInputWord (addressOf a) ∧ addressOf a % 2 = 0)) = true ∧
    ([0x30000000#32, 0x30000008#32].all fun a =>
      decide (¬Backed (addressOf a) ∧ addressOf a % 4 = 0 ∧ addressOf a ≠ 0x30000004)) = true := by decide

/-- BlockChecksBoundsThenPermission: the first local address out of bounds and the last in them. -/
theorem witness_block_bounds :
    sentinelBlock.length.toNat ≤ (4#32 : Word).toNat ∧ (3#32 : Word).toNat < sentinelBlock.length.toNat := by decide

/-- LookupSelectsTheGreatestStart: a Block selected, none selected, and an address above the selected one's extent. -/
theorem witness_lookup :
    findBlock standardLayout 0x20000000#32 = some dataBlock ∧
    findBlock { State.reset with blocks := [dataBlock] }.blocks 0x1FFFFFFF#32 = none ∧
    (findBlock State.reset.blocks 0x24000000#32 = some dataBlock ∧
      dataBlock.start.toNat + dataBlock.length.toNat ≤ (0x24000000#32 : Word).toNat) ∧
    (0x24000000#32 : Word) ≠ 0x30000000#32 ∧ (0x24000000#32 : Word) ≠ 0x30000004#32 := by decide

/-- EveryStepKeepsTheInvariant, InstructionMemoryNeverChanges and StreamsMoveByAtMostOneByte: a word store that emits. -/
theorem witness_invariant_step :
    let s := { placed 0xAD030004#32 [(8, 0x30000000#32), (3, 0x141#32)] with
      jumped := false, pcNext := 0#32, input := [] }
    Inv s ∧ (∃ t, step s = .next t) ∧ (∃ t, core.run 2 s = .next t) ∧ fetch s = .ok (0xAD030004#32, s) :=
  ⟨placed_inv _ _ false 0#32 [] (by decide) (by decide) (by decide) (by decide), ⟨_, rfl⟩, ⟨_, rfl⟩, rfl⟩

/-- TrapsArePrecise: the fetch traps; a byte store at the input port traps after the fetch. -/
theorem witness_precise_traps :
    (let s := { placed 0xA1030003#32 [(8, 0x30000000#32)] with
        jumped := false, pcNext := 0#32, input := [0x78#8, 0x79#8] };
      Inv s ∧ (∃ u, step s = .fault (.trap (.memory .badAddress) u)) ∧ fetch s = .ok (0xA1030003#32, s)) ∧
    (let s := { State.reset with pc := 0x10000004#32 };
      Inv s ∧ step s = .fault (.trap (.memory .badPC) s) ∧ fetch s = .error .badPC) :=
  ⟨⟨placed_inv _ _ false 0#32 _ (by decide) (by decide) (by decide) (by decide), ⟨_, rfl⟩, rfl⟩,
    ⟨{ memWf := rfl, backed := fun c hc => absurd hc List.not_mem_nil, sentinelZero := fun _ _ => rfl, layout := rfl,
       window := ⟨rfl, by decide, by decide⟩, legal := rfl, running := by decide }, rfl, rfl⟩⟩

/-- DecodeOfEncodeIsTheInstruction and DecodedInstructionsAreWellFormed: JAL's last target under the check. -/
theorem witness_encoding :
    (Instr.jal 0x3E0003F#26).wellFormed Params.default = true ∧
    decode Params.default 0x0FE0003F#32 = .ok (.jal 0x3E0003F#26) := ⟨rfl, rfl⟩

/-- WordsOutsideTheMapsAreInvalid: words of SPECIAL and of REGIMM. -/
theorem witness_maps : fieldOp 0x00641027#32 = 0#6 ∧ fieldOp 0x041F0000#32 = 1#6 := by decide

end Sys2Proof.Tests
end

/-! PROOFS. What an instruction that goes on can do, said once (`exec_effect`), the fetch that fails, and the statements
of 10_state.md settled from them. -/

namespace Sys2Proof.Machine

/-! ## What a completed instruction changes -/

/-- `u` is `s`, possibly after one read of the AddressSpace. -/
def Reads (s u : State) : Prop := u = s ∨ ∃ a force w, memRead s a force = .ok (w, u)

/-- A read changes no field but the input (R67). -/
theorem Reads.keeps {s u : State} (h : Reads s u) : u = { s with input := u.input } := by
  rcases h with rfl | ⟨_, _, _, hr⟩
  · rfl
  · exact memRead_keeps hr

/-- A write that answers changes no field but storage and the output (R67). -/
theorem memWrite_keeps {s t : State} {a v : Word} {force : Bool} (h : memWrite s a v force = .ok t) :
    t = { s with mem := t.mem, output := t.output } := by
  rcases memWrite_cases h with ⟨-, rfl⟩ | ⟨_, -, -, -, rfl⟩ <;> rfl

/-- The four things an instruction `i` that goes on from `s` can do, each with the class of instruction that does it. -/
inductive Effect (i : Instr) (s : State) : State → Prop
  /-- At most one read, then the destination register (R22, R252). -/
  | register {u : State} {r : RegNum} {v : Word} (read : Reads s u) (dest : destReg i = some r) :
      Effect i s (u.setReg r v)
  /-- HI and LO (R29, R30). -/
  | hiLo {hi lo : Word} (may : mayWriteHiLo i = true) : Effect i s (s.setHiLo hi lo)
  /-- The latch if the transfer is taken, after the link if there is one (R220, R223). -/
  | transfer {u : State} {taken : Bool} {target : Word}
      (link : u = s ∨ ∃ r, destReg i = some r ∧ u = linkTo s r) (control : isControlTransfer i = true) :
      Effect i s (branchIf taken u target)
  /-- At most one read, then one normal write (R262, R263). -/
  | store {u t : State} {a v : Word} (read : Reads s u) (write : memWrite u a v false = .ok t)
      (isStore : isStore i = true) : Effect i s t

/-- A load without an alignment rule reads once and writes its destination. -/
theorem Effect.of_loadLane {i : Instr} {s t : State} {r : RegNum} {a : Word} {value : Word → Word}
    (h : loadLane s r a value = .next t) (dest : destReg i = some r) : Effect i s t := by
  obtain ⟨w, u, hr, rfl⟩ := loadLane_next h
  exact .register (.inr ⟨_, _, _, hr⟩) dest

/-- A sub-word store reads its word once and writes it back. -/
theorem Effect.of_subWordStore {i : Instr} {s t : State} {a mask v : Word}
    (h : subWordStore s a mask v = .next t) (hs : Machine.isStore i = true) : Effect i s t := by
  obtain ⟨w, u, hr, hw⟩ := subWordStore_next h
  exact .store (.inr ⟨_, _, _, hr⟩) hw hs

/-- DIV that goes on wrote HI and LO, on a zero divisor with the values they had (R170). -/
theorem execDiv_next {s t : State} {rs rt : RegNum} (h : execDiv rs rt s = .next t) :
    ∃ hi lo, t = s.setHiLo hi lo := by
  unfold execDiv at h
  split at h
  · cases h
    exact ⟨s.hi, s.lo, rfl⟩
  · split at h
    · split at h
      · cases h
      · cases h
        exact ⟨_, _, rfl⟩
    · cases h
      exact ⟨_, _, rfl⟩

/-- DIVU goes on and writes HI and LO, on a zero divisor with the values they had (R171). -/
theorem execDivu_next {s t : State} {rs rt : RegNum} (h : execDivu rs rt s = .next t) :
    ∃ hi lo, t = s.setHiLo hi lo := by
  unfold execDivu at h
  split at h
  · cases h
    exact ⟨s.hi, s.lo, rfl⟩
  · cases h
    exact ⟨_, _, rfl⟩

/-- An instruction that goes on did one of the four things of `Effect`: every frame of `exec` follows from this. -/
theorem exec_effect {i : Instr} {s t : State} (h : exec i s = .next t) : Effect i s t := by
  cases i with
  | sll | srl | sra | sllv | srlv | srav | mfhi | mflo | addu | subu | and | or | xor | slt | sltu
  | addiu | slti | sltiu | andi | ori | xori | lui =>
    cases h
    exact .register (.inl rfl) rfl
  | add | addi =>
    obtain ⟨-, rfl⟩ := addTrapping_next h
    exact .register (.inl rfl) rfl
  | sub =>
    obtain ⟨-, rfl⟩ := subTrapping_next h
    exact .register (.inl rfl) rfl
  | mthi rs =>
    cases h
    exact .hiLo (hi := s.reg rs) (lo := s.lo) rfl
  | mtlo rs =>
    cases h
    exact .hiLo (hi := s.hi) (lo := s.reg rs) rfl
  | mult | multu =>
    cases h
    exact .hiLo rfl
  | div =>
    obtain ⟨_, _, rfl⟩ := execDiv_next h
    exact .hiLo rfl
  | divu =>
    obtain ⟨_, _, rfl⟩ := execDivu_next h
    exact .hiLo rfl
  | bltz | bgez | beq | bne | blez | bgtz =>
    cases h
    exact .transfer (.inl rfl) rfl
  | bltzal | bgezal =>
    cases h
    exact .transfer (.inr ⟨_, rfl, rfl⟩) rfl
  | jr | j =>
    cases h
    exact .transfer (taken := true) (.inl rfl) rfl
  | jalr | jal =>
    cases h
    exact .transfer (taken := true) (.inr ⟨_, rfl, rfl⟩) rfl
  | lb | lbu | lwl | lwr => exact .of_loadLane h rfl
  | lh | lhu => exact .of_loadLane (aligned_next h).2 rfl
  | lw =>
    obtain ⟨w, u, hr, hk⟩ := withRead_next (aligned_next h).2
    cases hk
    exact .register (.inr ⟨_, _, _, hr⟩) rfl
  | sb => exact .of_subWordStore h rfl
  | sh => exact .of_subWordStore (aligned_next h).2 rfl
  | sw => exact .store (.inl rfl) (finishWrite_next (aligned_next h).2) rfl

/-! ## HI and LO -/

theorem Reads.sameHiLo {s u : State} (h : Reads s u) : SameHiLo s u := by
  rw [h.keeps]
  exact ⟨rfl, rfl⟩

theorem memWrite_sameHiLo {s t : State} {a v : Word} {force : Bool} (h : memWrite s a v force = .ok t) :
    SameHiLo s t := by
  rw [memWrite_keeps h]
  exact ⟨rfl, rfl⟩

theorem SameHiLo.trans {s t u : State} (h : SameHiLo s t) (h' : SameHiLo t u) : SameHiLo s u :=
  ⟨h'.1.trans h.1, h'.2.trans h.2⟩

/-- Of the four effects only the write of HI and LO changes them (R30). -/
theorem Effect.sameHiLo {i : Instr} {s t : State} (h : Effect i s t) (hi : mayWriteHiLo i = false) :
    SameHiLo s t := by
  cases h with
  | register read _ => exact read.sameHiLo.trans (by simp [SameHiLo])
  | hiLo may => simp [hi] at may
  | transfer link _ => rcases link with rfl | ⟨r, -, rfl⟩ <;> simp [SameHiLo, linkTo]
  | store read write _ => exact read.sameHiLo.trans (memWrite_sameHiLo write)

/-- DIV by zero changes nothing (R170). -/
theorem exec_div_of_zero {s : State} {rs rt : RegNum} (h : s.reg rt = 0#32) : exec (.div rs rt) s = .next s :=
  if_pos h

/-- DIVU by zero changes nothing (R171). -/
theorem exec_divu_of_zero {s : State} {rs rt : RegNum} (h : s.reg rt = 0#32) : exec (.divu rs rt) s = .next s :=
  if_pos h

/-- Settles O11: the 47 other instructions by the effects of `exec_effect`, the moves and the divisions by zero by their
meanings. -/
theorem hiLoChangeOnlyByTheirInstructions : Obligations.HiLoChangeOnlyByTheirInstructions := by
  refine ⟨fun i s t h hi => (exec_effect h).sameHiLo hi, ?mthi, ?mtlo, ?zeroDivisor⟩
  case mthi =>
    intro s t rs h
    cases h
    rfl
  case mtlo =>
    intro s t rs h
    cases h
    rfl
  case zeroDivisor =>
    intro s t rs rt h0 h
    rw [exec_div_of_zero h0, exec_divu_of_zero h0, or_self] at h
    cases h
    exact ⟨rfl, rfl⟩

/-! ## The fetch that fails -/

/-- The window under `Inclusive` (R25; D2). -/
theorem pcValid_inclusive {s : State} (h : s.params.pcLimitMode = .inclusive) (p : Word) :
    pcValid s p = true ↔ p.toNat % 4 = 0 ∧ s.pcMin.toNat ≤ p.toNat ∧ p.toNat ≤ s.pcMax.toNat := by
  simp [pcValid_iff, pcUpper, h]

/-- The window under `Strict`, without wrap (R25; log 7). -/
theorem pcValid_strict {s : State} (h : s.params.pcLimitMode = .strict) (p : Word) :
    pcValid s p = true ↔ p.toNat % 4 = 0 ∧ s.pcMin.toNat ≤ p.toNat ∧ p.toNat + 4 ≤ s.pcMax.toNat := by
  simp [pcValid_iff, pcUpper, h]

/-- A valid PC is read (R111). -/
theorem fetch_of_valid {s : State} (h : pcValid s s.pc = true) : fetch s = memRead s s.pc false := if_pos h

/-- An invalid PC is BadPC (R110). -/
theorem fetch_of_not_valid {s : State} (h : ¬pcValid s s.pc = true) : fetch s = .error .badPC := if_neg h

/-- A fetch that fails ends the run in the state as the step began (R279). -/
theorem step_of_fetch_error {s : State} {r : MemoryReason} (h : fetch s = .error r) :
    step s = .fault (.trap (.memory r) s) := by
  simp [step, h, raise]

/-- Settles O4: outside the window of either mode the PC check fails; at 0x11000000 it holds, and no Block backs the
read. -/
theorem stepTrapsWhenTheFetchFails : Obligations.StepTrapsWhenTheFetchFails := by
  refine ⟨fun s hm hw => ?inclusive, fun s hm hw => ?strict, fun s hm hl hmin hmax hpc => ?fullImage⟩
  case inclusive => exact step_of_fetch_error (fetch_of_not_valid (mt (pcValid_inclusive hm _).1 hw))
  case strict => exact step_of_fetch_error (fetch_of_not_valid (mt (pcValid_strict hm _).1 hw))
  case fullImage =>
    have hv : pcValid s s.pc = true := by simp [pcValid_inclusive hm, hmin, hmax, hpc]
    have hr : memRead s s.pc false = .error .badAddress := by
      rw [hpc]
      exact memRead_unbacked hl _ _ (by decide) (by decide)
    exact step_of_fetch_error ((fetch_of_valid hv).trans hr)

/-! ## Register ports -/

/-- Settles O14, from the laws of the two ports. -/
theorem registerPortsKeepRegisterZero : Obligations.RegisterPortsKeepRegisterZero := by
  intro s r k v
  refine ⟨reg_zero s, setReg_zero s v, fun hr => ?_, reg_setReg_of_ne s v⟩
  rw [reg_setReg_self, written, if_neg hr]

end Sys2Proof.Machine

/-! PROOFS. The Block access, the lookup and the AddressSpace where no Block answers, the state a trap leaves
(`exec_trap`, `step_trap`), and the statements of 20_memory.md settled from them. -/

namespace Sys2Proof.Machine

/-! ## The Block access -/

/-- Out of bounds is BadAddress, whatever the permission and the force (R53). -/
theorem check_of_length_le {b : Block} {l : Word} (h : b.length.toNat ≤ l.toNat) (denied force : Bool) :
    Block.check b l denied force = some .badAddress := if_pos h

/-- Inside the bounds only the permission is left, and force suspends it (R53, R54). -/
theorem check_of_lt_length {b : Block} {l : Word} (h : l.toNat < b.length.toNat) (denied force : Bool) :
    Block.check b l denied force = if force = false ∧ denied = true then some .permission else none := by
  simp [Block.check, show ¬b.length ≤ l from Nat.not_le.2 h]

/-- Settles O48: both accesses are the check, then the word. -/
theorem blockChecksBoundsThenPermission : Obligations.BlockChecksBoundsThenPermission := by
  refine fun b m l v force => ⟨fun h => ?outOfBounds, fun h => ⟨?read, ?write⟩⟩
  case outOfBounds => simp [Block.read, Block.write, check_of_length_le h]
  case read =>
    rw [Block.read, check_of_lt_length h]
    by_cases hd : force = false ∧ b.writeable = true ∧ b.readable = false <;>
      simp [Block.readDenied, Block.wordAddress, hd]
  case write =>
    rw [Block.write, check_of_lt_length h]
    by_cases hd : force = false ∧ b.readable = true <;> simp [Block.writeDenied, Block.wordAddress, hd]

/-! ## The lookup -/

/-- The lookup selects none exactly where every start exceeds the address (R57). -/
theorem findBlock_eq_none_iff {bs : List Block} {a : Word} :
    findBlock bs a = none ↔ ∀ c ∈ bs, a.toNat < c.start.toNat := by
  induction bs with
  | nil => simp [findBlock]
  | cons b rest ih =>
    rw [List.forall_mem_cons, ← ih, findBlock]
    cases findBlock rest a with
    | none => simp [BitVec.le_def]
    | some c => by_cases h : b.start ≤ a ∧ c.start < b.start <;> simp [h]

/-- The Block selected is in the list, and its start is the greatest not exceeding the address (R57). -/
theorem findBlock_some {bs : List Block} {a : Word} {b : Block} (h : findBlock bs a = some b) :
    b ∈ bs ∧ b.start.toNat ≤ a.toNat ∧ ∀ c ∈ bs, c.start.toNat ≤ a.toNat → c.start.toNat ≤ b.start.toNat := by
  induction bs generalizing b with
  | nil => cases h
  | cons d rest ih =>
    rw [List.forall_mem_cons]
    unfold findBlock at h
    split at h
    · rename_i hnone
      have habove := findBlock_eq_none_iff.1 hnone
      split at h
      · rename_i hd
        cases h
        exact ⟨List.mem_cons_self, hd, fun _ => le_rfl, fun c hc hca => absurd (habove c hc) (by omega)⟩
      · cases h
    · rename_i e hsome
      obtain ⟨hmem, hle, hmax⟩ := ih hsome
      split at h
      · rename_i hd
        cases h
        exact ⟨List.mem_cons_self, hd.1, fun _ => le_rfl, fun c hc hca => (hmax c hc hca).trans (Nat.le_of_lt hd.2)⟩
      · rename_i hd
        cases h
        exact ⟨List.mem_cons_of_mem _ hmem, hle, fun hda => Nat.not_lt.1 fun hlt => hd ⟨hda, hlt⟩, hmax⟩

/-- No Block serves `a`: none is selected, or `a` lies above the extent of the one selected. -/
def OutOfBlocks (bs : List Block) (a : Word) : Prop :=
  findBlock bs a = none ∨ ∃ b, findBlock bs a = some b ∧ b.start.toNat + b.length.toNat ≤ a.toNat

/-- Above the extent of the Block selected its check fails (R53, R57). -/
theorem check_above_extent {bs : List Block} {a : Word} {b : Block} (hf : findBlock bs a = some b)
    (h : b.start.toNat + b.length.toNat ≤ a.toNat) (denied force : Bool) :
    Block.check b (a - b.start) denied force = some .badAddress := by
  rw [check_standard a force denied b (findBlock_some hf).2.1, if_pos h]

/-- A read that no Block serves and that is not at the input port is BadAddress (R55, R57). -/
theorem memRead_outOfBlocks {s : State} {a : Word} (h : OutOfBlocks s.blocks a) (hp : a ≠ inputPort) (force : Bool) :
    memRead s a force = .error .badAddress := by
  rcases h with hf | ⟨b, hf, hb⟩
  · simp [memRead, hp, hf]
  · simp [memRead, hp, hf, Block.read, check_above_extent hf hb]

/-- A write that no Block serves and that is not at the output port is BadAddress (R56, R57). -/
theorem memWrite_outOfBlocks {s : State} {a : Word} (h : OutOfBlocks s.blocks a) (hp : a ≠ outputPort) (v : Word)
    (force : Bool) : memWrite s a v force = .error .badAddress := by
  rcases h with hf | ⟨b, hf, hb⟩
  · simp [memWrite, hp, hf]
  · simp [memWrite, hp, hf, Block.write, check_above_extent hf hb]

/-- Settles O49: the lookup by induction on the list, the accesses by the bound check of the Block it selects, and the
standard layout by its lookup in closed form. -/
theorem lookupSelectsTheGreatestStart : Obligations.LookupSelectsTheGreatestStart := by
  refine ⟨fun bs a => ⟨fun b hb => findBlock_some hb, findBlock_eq_none_iff⟩,
    fun s a v force h => ?access, fun a => ?standard⟩
  case access => exact ⟨fun hp => memRead_outOfBlocks h hp force, fun hp => memWrite_outOfBlocks h hp v force⟩
  case standard => simp [findBlock_standard]

/-! ## Loads where no Block answers -/

/-- A read that fails ends the instruction in the state it found (R279). -/
theorem withRead_of_error {s : State} {a : Word} {force : Bool} {r : MemoryReason}
    (h : memRead s a force = .error r) (k : Word → State → Out) :
    withRead s a force k = .fault (.trap (.memory r) s) := by
  simp [withRead, h, raise]

/-- An aligned access goes on (R252). -/
theorem aligned_of_mod {a : Word} {n : Nat} (h : a.toNat % n = 0) (s : State) (rest : Out) :
    aligned s a n rest = rest := if_pos h

/-- The Blocks hold whole words: the word around an address is backed with it (R52, R250). -/
theorem backed_wordAddr {a : Word} : Backed (wordAddr a).toNat ↔ Backed a.toNat := by
  rw [toNat_wordAddr]
  omega

/-- The word around an address is the input port only for the addresses of the port's word (R59, R250). -/
theorem wordAddr_ne_inputPort {a : Word} (h : ¬InInputWord a.toNat) : wordAddr a ≠ inputPort :=
  toNat_ne_of_ne (n := 0x30000000) (by rw [toNat_wordAddr]; omega) _ rfl

/-- Settles O40: the one read of each load is at the word around the address (LW's at the address), which no Block backs
and which is not the input port. -/
theorem loadsOutsideTheBlocksTrap : Obligations.LoadsOutsideTheBlocksTrap := by
  intro s rt imm rs hl a hb hp
  have lane (value : Word → Word) :
      loadLane s rt (effAddr s imm rs) value = .fault (.trap (.memory .badAddress) s) :=
    withRead_of_error (memRead_unbacked hl _ _ (mt backed_wordAddr.1 hb) (wordAddr_ne_inputPort hp)) _
  have word (k : Word → State → Out) :
      withRead s (effAddr s imm rs) false k = .fault (.trap (.memory .badAddress) s) :=
    withRead_of_error (memRead_unbacked hl _ _ hb (toNat_ne_of_ne (n := 0x30000000) (by omega) _ rfl)) k
  exact ⟨lane _, lane _, lane _, lane _,
    fun ha => ⟨(aligned_of_mod ha _ _).trans (lane _), (aligned_of_mod ha _ _).trans (lane _)⟩,
    fun ha => (aligned_of_mod ha _ _).trans (word _)⟩

/-! ## The state a trap leaves -/

section
variable {s u : State} {tr : Trap}

theorem addTrapping_trap {r : RegNum} {a b : Word} (h : addTrapping s r a b = .fault (.trap tr u)) : u = s := by
  unfold addTrapping at h
  split at h <;> cases h
  rfl

theorem subTrapping_trap {r : RegNum} {a b : Word} (h : subTrapping s r a b = .fault (.trap tr u)) : u = s := by
  unfold subTrapping at h
  split at h <;> cases h
  rfl

/-- DIV ends a run only as Undefined (R170, R276). -/
theorem execDiv_ne_trap {rs rt : RegNum} : execDiv rs rt s ≠ .fault (.trap tr u) := by
  intro h
  unfold execDiv at h
  split at h
  · cases h
  · split at h
    · split at h <;> cases h
    · cases h

theorem execDivu_ne_trap {rs rt : RegNum} : execDivu rs rt s ≠ .fault (.trap tr u) := by
  intro h
  unfold execDivu at h
  split at h <;> cases h

/-- A trap of an aligned access is the alignment's, in the state found, or the access's own (R252). -/
theorem aligned_trap {a : Word} {n : Nat} {rest : Out} (h : aligned s a n rest = .fault (.trap tr u)) :
    u = s ∨ rest = .fault (.trap tr u) := by
  unfold aligned at h
  split at h
  · exact .inr h
  · cases h
    exact .inl rfl

/-- A trap of a read and what follows it is the read's, in the state found, or comes after a read that answered. -/
theorem withRead_trap {a : Word} {force : Bool} {k : Word → State → Out}
    (h : withRead s a force k = .fault (.trap tr u)) :
    u = s ∨ ∃ w s', memRead s a force = .ok (w, s') ∧ k w s' = .fault (.trap tr u) := by
  unfold withRead at h
  split at h
  · cases h
    exact .inl rfl
  · rename_i w s' hr
    exact .inr ⟨w, s', hr, h⟩

/-- A read whose word goes to a register traps only in the state found. -/
theorem withRead_finishReg_trap {a : Word} {force : Bool} {r : RegNum} {value : Word → Word}
    (h : withRead s a force (fun w s' => finishReg s' r (value w)) = .fault (.trap tr u)) : u = s := by
  rcases withRead_trap h with rfl | ⟨_, _, -, hk⟩
  · rfl
  · cases hk

theorem finishWrite_trap {a v : Word} (h : finishWrite s a v = .fault (.trap tr u)) : u = s := by
  unfold finishWrite at h
  split at h <;> cases h
  rfl

/-- A sub-word store traps at its read, or at its write in the state after the read (R262). -/
theorem subWordStore_trap {a mask v : Word} (h : subWordStore s a mask v = .fault (.trap tr u)) : Reads s u := by
  rcases withRead_trap h with hu | ⟨w, s', hr, hk⟩
  · exact .inl hu
  · rw [finishWrite_trap hk]
    exact .inr ⟨a, true, w, hr⟩

/-- An instruction that traps leaves the state it found, SB and SH that state after their forced read (R279; D20): every
claim about the state a trap leaves follows from this. -/
theorem exec_trap {i : Instr} (h : exec i s = .fault (.trap tr u)) :
    u = s ∨ (Reads s u ∧ ∃ rt imm rs, i = .sb rt imm rs ∨ i = .sh rt imm rs) := by
  cases i with
  | sll | srl | sra | sllv | srlv | srav | jr | jalr | mfhi | mthi | mflo | mtlo | mult | multu | addu | subu | and | or
  | xor | slt | sltu | bltz | bgez | bltzal | bgezal | j | jal | beq | bne | blez | bgtz | addiu | slti | sltiu | andi
  | ori | xori | lui => cases h
  | add | addi => exact .inl (addTrapping_trap h)
  | sub => exact .inl (subTrapping_trap h)
  | div => exact absurd h execDiv_ne_trap
  | divu => exact absurd h execDivu_ne_trap
  | lb | lbu | lwl | lwr => exact .inl (withRead_finishReg_trap h)
  | lh | lhu | lw => exact .inl ((aligned_trap h).elim id withRead_finishReg_trap)
  | sb => exact .inr ⟨subWordStore_trap h, _, _, _, .inl rfl⟩
  | sh =>
    rcases aligned_trap h with hu | hstore
    · exact .inl hu
    · exact .inr ⟨subWordStore_trap hstore, _, _, _, .inr rfl⟩
  | sw => exact .inl ((aligned_trap h).elim id finishWrite_trap)

/-- The check for the normal end adds no trap (R116). -/
theorem terminate_trap {o : Out} (h : terminate o = .fault (.trap tr u)) : o = .fault (.trap tr u) := by
  cases o with
  | next t =>
    simp only [terminate] at h
    split at h <;> cases h
  | fault r => exact h
  | refused r => cases h

/-- A step that traps did so at the fetch, in the state as it began, or after the advance, in the advanced state but for
the forced read of SB or SH (R279; D20). -/
theorem step_trap (h : step s = .fault (.trap tr u)) :
    (∃ r, fetch s = .error r ∧ u = s) ∨
    ∃ w s1, fetch s = .ok (w, s1) ∧ (u = advance s1 ∨ (Reads (advance s1) u ∧
      ∃ rt imm rs, decode s.params w = .ok (.sb rt imm rs) ∨ decode s.params w = .ok (.sh rt imm rs))) := by
  unfold step at h
  split at h
  · rename_i r hf
    cases h
    exact .inl ⟨r, hf, rfl⟩
  · rename_i w s1 hf
    refine .inr ⟨w, s1, hf, ?_⟩
    split at h
    · cases h
      exact .inl rfl
    · rename_i i hd
      split at h
      · cases h
        exact .inl rfl
      · simpa [hd] using exec_trap (terminate_trap h)

/-- A read leaves everything but the input (R67). -/
theorem Reads.frame (h : Reads s u) :
    SameRegs s u ∧ SameControl s u ∧ SameHiLo s u ∧ SameMem s u ∧ u.output = s.output ∧ SameFixed s u := by
  rw [h.keeps]
  exact ⟨fun _ => rfl, ⟨rfl, rfl, rfl⟩, ⟨rfl, rfl⟩, fun _ => rfl, rfl, rfl, rfl, rfl, rfl⟩

/-- A read consumes at most one input byte, from the front (R67). -/
theorem Reads.input (h : Reads s u) : u.input = s.input ∨ u.input = s.input.tail := by
  rcases h with rfl | ⟨_, _, _, hr⟩
  · exact .inl rfl
  · rcases memRead_cases hr with rfl | ⟨-, b, rest, hin, rfl⟩
    · exact .inl rfl
    · exact .inr (by simp [hin])

end

/-- Settles O53: after the advance `step_trap` leaves at most one read, whose frame is the claim; under the invariant
the fetch consumes no input. -/
theorem trapsArePrecise : Obligations.TrapsArePrecise := by
  intro s u tr hinv h
  rcases step_trap h with ⟨r, hf, rfl⟩ | ⟨w, s1, hf, hu⟩
  · obtain ⟨hregs, ⟨-, hnext, -⟩, hhilo, hmem, hout, hfixed⟩ := Reads.frame (s := u) (.inl rfl)
    exact ⟨hregs, hhilo, hmem, hout, hnext, hfixed, fun _ _ => rfl, fun w s1 hok => by simp [hf] at hok⟩
  · obtain rfl := fetch_of_inv hinv hf
    have hread : Reads (advance s1) u := hu.elim .inl And.left
    obtain ⟨hregs, ⟨hpc, hnext, hjumped⟩, hhilo, hmem, hout, hfixed⟩ := hread.frame
    refine ⟨hregs, hhilo, hmem, hout, hnext, hfixed, fun r herr => by simp [hf] at herr, fun w' s2 hok => ?_⟩
    obtain ⟨rfl, rfl⟩ : w = w' ∧ s1 = s2 := by simpa [hf] using hok
    refine ⟨hpc, hjumped, ?_⟩
    rcases hu with rfl | ⟨hr, hstore⟩
    · exact .inl rfl
    · exact hr.input.imp_right fun ht => ⟨ht, hstore⟩

end Sys2Proof.Machine

/-! PROOFS. The words of SPECIAL and the maps of the decoder (R95 to R104), what an instruction that writes one register,
HI and LO, or the latch leaves unchanged, and the statements of 30_encoding.md settled from them. -/

namespace Sys2Proof.Machine

/-! ## The words of SPECIAL -/

/-- The words of SPECIAL are read by the function map (R96). -/
theorem decode_of_special {w : Word} (h : fieldOp w = 0x00#6) (p : Params) : decode p w = decodeSpecial p w := by
  simp only [decode, h]

/-- The words of REGIMM are read by the map on `rt` (R97). -/
theorem decode_of_regimm {w : Word} (h : fieldOp w = 0x01#6) (p : Params) : decode p w = decodeRegimm w := by
  simp only [decode, h]

/-- The words of a function of SPECIAL are those its row of the map admits (R96, R98, R104). -/
theorem specialWords_of_row {funct : BitVec 6} {ok : Params → Word → Bool} {i : Word → Instr}
    (row : ∀ p w, fieldFunct w = funct → decodeSpecial p w = requireFields (ok p w) (i w)) : SpecialWords funct ok i :=
  fun p w hop hfn => (decode_of_special hop p).trans (row p w hfn)

/-! ## One register, HI and LO, the latch: the rest is unchanged -/

theorem setReg_writesOnlyReg (s : State) (r : RegNum) (v : Word) : WritesOnlyReg s (s.setReg r v) r v :=
  ⟨reg_setReg_self s r v, fun _ hk => reg_setReg_of_ne s v hk, by simp [SameControl], by simp [SameHiLo],
    setReg_byte s r v, by simp [SameIO], by simp [SameFixed]⟩

/-- An instruction whose last act is the register write changes nothing else (R22). -/
theorem setsReg_of_finishReg {i : Instr} {s : State} {r : RegNum} {v : Word} (h : exec i s = finishReg s r v) :
    SetsReg i s r v :=
  ⟨_, h, setReg_writesOnlyReg s r v⟩

theorem setHiLo_writesOnlyHiLo (s : State) (hi lo : Word) : WritesOnlyHiLo s (s.setHiLo hi lo) hi lo :=
  ⟨rfl, rfl, setHiLo_reg s hi lo, ⟨rfl, rfl, rfl⟩, setHiLo_byte s hi lo, ⟨rfl, rfl⟩, ⟨rfl, rfl, rfl, rfl⟩⟩

/-- An instruction that answers the state with HI and LO replaced changes nothing else (R29). -/
theorem setsHiLo_of_setHiLo {i : Instr} {s : State} {hi lo : Word} (h : exec i s = .next (s.setHiLo hi lo)) :
    SetsHiLo i s hi lo :=
  ⟨_, h, setHiLo_writesOnlyHiLo s hi lo⟩

/-- `branch(t)` under a condition sets the latch exactly where it holds, and never PC (R220). -/
theorem branchIf_latchAfter (s : State) {c : Bool} {taken : Prop} (hc : c = true ↔ taken) (target : Word) :
    LatchAfter s (branchIf c s target) taken target := by
  cases c <;> simp [LatchAfter, ← hc]

/-- An instruction that answers the state after `branch(t)` under a condition is a transfer without a link (R220). -/
theorem transfers_of_branchIf {i : Instr} {s : State} {c : Bool} {taken : Prop} {target : Word}
    (h : exec i s = .next (branchIf c s target)) (hc : c = true ↔ taken) : Transfers i s taken target :=
  ⟨_, h, branchIf_latchAfter s hc target, branchIf_reg c s target, by simp [SameHiLo], by simp [SameMem, State.byte],
    by simp [SameIO], by simp [SameFixed]⟩

/-- The link and then `branch(t)` under a condition make a linking transfer (R220, R223). -/
theorem transfersAndLinks_of_branchIf {i : Instr} {s : State} {r : RegNum} {c : Bool} {taken : Prop} {target : Word}
    (h : exec i s = .next (branchIf c (linkTo s r) target)) (hc : c = true ↔ taken) :
    TransfersAndLinks i s r taken target := by
  refine ⟨_, h, ?latch, ?link, ?regs, ?hilo, ?mem, ?io, ?fixed⟩
  case latch => simpa [LatchAfter, linkTo] using branchIf_latchAfter (linkTo s r) hc target
  case link => exact (branchIf_reg ..).trans (reg_setReg_self ..)
  case regs => exact fun k hk => (branchIf_reg ..).trans (reg_setReg_of_ne _ _ hk)
  case hilo => simp [SameHiLo, linkTo]
  case mem => simp [SameMem, State.byte, linkTo]
  case io => simp [SameIO, linkTo]
  case fixed => simp [SameFixed, linkTo]

/-! ## Shifts by a constant -/

/-- A left shift multiplies by a power of two, modulo 2^32 (R12). -/
theorem shiftLeft_eq_ofNat (a : Word) (n : Nat) : shiftLeft a n = BitVec.ofNat 32 (a.toNat * 2 ^ n) :=
  congrArg (BitVec.ofNat 32) (Nat.shiftLeft_eq _ _)

/-- A logical right shift divides the unsigned value by a power of two (R12). -/
theorem shiftRightLogical_eq_ofNat (a : Word) (n : Nat) :
    shiftRightLogical a n = BitVec.ofNat 32 (a.toNat / 2 ^ n) := by
  rw [shiftRightLogical, ← Nat.shiftRight_eq_div_pow, ← BitVec.toNat_ushiftRight, BitVec.ofNat_toNat,
    BitVec.setWidth_eq]

/-- An arithmetic right shift divides the signed value by a power of two, rounded down (R12). -/
theorem shiftRightArith_eq_ofInt (a : Word) (n : Nat) :
    shiftRightArith a n = BitVec.ofInt 32 (a.toInt / 2 ^ n) := by
  rw [shiftRightArith, BitVec.sshiftRight_eq, Int.shiftRight_eq_div_pow, Nat.cast_pow, Nat.cast_ofNat]

/-- Settles O15: each shift is the register write of its arithmetic value. -/
theorem constantShiftsWriteRd : Obligations.ConstantShiftsWriteRd := by
  refine ⟨?_, ?_, ?_, fun s rd rt sh => ⟨?sll, ?srl, ?sra⟩⟩
  iterate 3 exact specialWords_of_row fun _ _ h => by simp only [decodeSpecial, h]
  case sll => rw [← shiftLeft_eq_ofNat]; exact setsReg_of_finishReg rfl
  case srl => rw [← shiftRightLogical_eq_ofNat]; exact setsReg_of_finishReg rfl
  case sra => rw [← shiftRightArith_eq_ofInt]; exact setsReg_of_finishReg rfl

/-! ## HI and LO -/

/-- Settles O17: MTHI and MTLO write the other of HI and LO with the value it has. -/
theorem hiLoMoves : Obligations.HiLoMoves := by
  refine ⟨?_, ?_, ?_, ?_, fun _ _ =>
    ⟨setsReg_of_finishReg rfl, setsHiLo_of_setHiLo rfl, setsReg_of_finishReg rfl, setsHiLo_of_setHiLo rfl⟩⟩
  iterate 4 exact specialWords_of_row fun _ _ h => by simp only [decodeSpecial, h]

/-- The signed value of 64 bits from their halves, the upper one signed (R160). -/
theorem toInt_halves (p : BitVec 64) :
    (p.extractLsb' 32 32).toInt * 2 ^ 32 + (p.extractLsb' 0 32).toNat = p.toInt := by
  have h := congrArg BitVec.toInt (BitVec.extractLsb'_append_extractLsb' (w := 32) (len := 32) (x := p))
  rw [BitVec.toInt_append] at h
  rw [mul_comm]
  exact h

/-- The unsigned value of 64 bits from their halves (R161). -/
theorem toNat_halves (p : BitVec 64) :
    (p.extractLsb' 32 32).toNat * 2 ^ 32 + (p.extractLsb' 0 32).toNat = p.toNat := by
  have := p.isLt
  simp only [BitVec.extractLsb'_toNat]
  omega

/-- The signed product of two words fits in 64 bits (R160). -/
theorem toInt_productSigned (a b : Word) : (productSigned a b).toInt = a.toInt * b.toInt := by
  have hle : a.toInt * b.toInt ≤ 2 ^ 62 := BitVec.toInt_mul_toInt_le
  have hge : -2 ^ 62 ≤ a.toInt * b.toInt := BitVec.le_toInt_mul_toInt
  exact BitVec.toInt_ofInt_eq_self (by decide) (by omega) (by omega)

/-- The unsigned product of two words fits in 64 bits (R161). -/
theorem toNat_productUnsigned (a b : Word) : (productUnsigned a b).toNat = a.toNat * b.toNat :=
  Nat.mod_eq_of_lt BitVec.toNat_mul_toNat_lt

/-- Settles O18: HI and LO are the halves of a product that fits in them. -/
theorem multiplyLeavesTheExactProduct : Obligations.MultiplyLeavesTheExactProduct := by
  refine ⟨?_, ?_, fun s rs rt => ⟨?mult, ?multu⟩⟩
  iterate 2 exact specialWords_of_row fun _ _ h => by simp only [decodeSpecial, h]
  case mult => exact ⟨_, _, setsHiLo_of_setHiLo rfl, (toInt_halves _).trans (toInt_productSigned _ _)⟩
  case multu => exact ⟨_, _, setsHiLo_of_setHiLo rfl, (toNat_halves _).trans (toNat_productUnsigned _ _)⟩

/-! ## Division -/

/-- Outside the zero divisor and the overflow case DIV leaves quotient and remainder (R170). -/
theorem exec_div_of_ne {s : State} {rs rt : RegNum} (h0 : s.reg rt ≠ 0#32)
    (hov : ¬(s.reg rs = 0x80000000#32 ∧ s.reg rt = 0xFFFFFFFF#32)) :
    exec (.div rs rt) s = .next (s.setHiLo (BitVec.ofInt 32 (remSigned (s.reg rs) (s.reg rt)))
      (BitVec.ofInt 32 (quotSigned (s.reg rs) (s.reg rt)))) := by
  simp [exec, execDiv, h0, divOverflows, hov]

/-- DIV's overflow case, by DIV_OVERFLOW (R170; D12). -/
theorem exec_div_of_overflow {s : State} {rs rt : RegNum} (ha : s.reg rs = 0x80000000#32)
    (hb : s.reg rt = 0xFFFFFFFF#32) :
    (s.params.divOverflow = .fault → exec (.div rs rt) s = .fault (.undefined .divOverflow s)) ∧
    (s.params.divOverflow = .wrap → exec (.div rs rt) s = .next (s.setHiLo 0#32 0x80000000#32)) := by
  constructor <;> intro h <;> simp [exec, execDiv, divOverflows, raiseUndefined, ha, hb, h]

/-- The quotient fits in a word but in the overflow case (R170). -/
theorem toInt_ofInt_quotSigned {a b : Word} (hov : ¬(a = 0x80000000#32 ∧ b = 0xFFFFFFFF#32)) :
    (BitVec.ofInt 32 (quotSigned a b)).toInt = a.toInt.tdiv b.toInt := by
  rw [BitVec.toInt_ofInt, quotSigned, ← BitVec.toInt_sdiv]
  exact BitVec.toInt_sdiv_of_ne_or_ne a b (not_and_or.1 hov)

/-- The remainder is that of truncated division, which has the dividend's sign (R170; D21). -/
theorem remSigned_eq_tmod (a b : Word) : remSigned a b = a.toInt.tmod b.toInt := by
  rw [remSigned, quotSigned, Int.tmod_def, mul_comm]

/-- The remainder fits in a word (R170). -/
theorem toInt_ofInt_remSigned (a b : Word) : (BitVec.ofInt 32 (remSigned a b)).toInt = remSigned a b := by
  rw [remSigned_eq_tmod, ← BitVec.toInt_srem, BitVec.ofInt_toInt]

/-- Settles O19. Where the quotient fits, the remainder is what it leaves of the dividend. -/
theorem divideSigned : Obligations.DivideSigned := by
  refine ⟨specialWords_of_row fun _ _ h => by simp only [decodeSpecial, h],
    fun s rs rt => ⟨exec_div_of_zero, fun ha hb => ?overflow, fun h0 hov => ?divides⟩⟩
  case overflow => exact (exec_div_of_overflow ha hb).imp_right fun h hp => setsHiLo_of_setHiLo (h hp)
  case divides =>
    refine ⟨_, _, setsHiLo_of_setHiLo (exec_div_of_ne h0 hov), toInt_ofInt_quotSigned hov, ?_, ?_⟩
    · rw [toInt_ofInt_quotSigned hov, toInt_ofInt_remSigned, remSigned, quotSigned]
      ring
    · have hne : (s.reg rt).toInt ≠ 0 := fun h => h0 (BitVec.toInt_inj.1 h)
      rw [toInt_ofInt_remSigned, remSigned_eq_tmod, Int.natAbs_tmod]
      exact Nat.mod_lt _ (Int.natAbs_pos.2 hne)

/-- DIVU by a divisor that is not zero leaves quotient and remainder (R171). -/
theorem exec_divu_of_ne {s : State} {rs rt : RegNum} (h0 : s.reg rt ≠ 0#32) :
    exec (.divu rs rt) s = .next (s.setHiLo (s.reg rs % s.reg rt) (s.reg rs / s.reg rt)) := by
  rw [BitVec.umod_def, BitVec.udiv_def]
  exact if_neg h0

/-- Settles O20: LO and HI are the quotient and the remainder of the unsigned division. -/
theorem divideUnsigned : Obligations.DivideUnsigned := by
  refine ⟨specialWords_of_row fun _ _ h => by simp only [decodeSpecial, h],
    fun s rs rt => ⟨exec_divu_of_zero, fun h0 => ?_⟩⟩
  refine ⟨_, _, setsHiLo_of_setHiLo (exec_divu_of_ne h0), ?_, ?_⟩
  · rw [BitVec.toNat_udiv, BitVec.toNat_umod, Nat.div_add_mod']
  · have hpos : 0 < (s.reg rt).toNat := Nat.pos_of_ne_zero fun h => h0 (BitVec.eq_of_toNat_eq h)
    rw [BitVec.toNat_umod]
    exact Nat.mod_lt _ hpos

/-! ## Register jumps -/

/-- Settles O29: both are taken under the condition `true`, and the target is read before the link is written. -/
theorem registerJumpsLatchTheOldRs : Obligations.RegisterJumpsLatchTheOldRs := by
  refine ⟨?_, ?_, fun s rd rs => ⟨?jr, ?jalr⟩⟩
  iterate 2 exact specialWords_of_row fun _ _ h => by simp only [decodeSpecial, h]
  case jr => exact transfers_of_branchIf (c := true) rfl (by simp)
  case jalr => exact transfersAndLinks_of_branchIf (c := true) rfl (by simp)

/-! ## The maps of the decoder -/

/-- A reserved field is the only reason for which a word inside a map is Invalid (R101). -/
theorem requireFields_eq_error_iff {ok : Bool} {i : Instr} {r : InvalidReason} :
    requireFields ok i = .error r ↔ ok = false ∧ r = .reservedField := by
  cases ok <;> simp [requireFields, eq_comm]

/-- SPECIAL refuses a word by UnknownFunct exactly outside its map (R96, R100). -/
theorem decodeSpecial_unknownFunct_iff (p : Params) (w : Word) :
    (fieldFunct w).toNat ∉ [0x00, 0x02, 0x03, 0x04, 0x06, 0x07, 0x08, 0x09, 0x10, 0x11, 0x12, 0x13, 0x18, 0x19, 0x1A,
      0x1B, 0x20, 0x21, 0x22, 0x23, 0x24, 0x25, 0x26, 0x2A, 0x2B] ↔ decodeSpecial p w = .error .unknownFunct := by
  unfold decodeSpecial
  split
  case h_26 => simp_all [BitVec.toNat_eq]
  all_goals simp [*, requireFields_eq_error_iff]

theorem decodeSpecial_ne_unknownOpcode (p : Params) (w : Word) : decodeSpecial p w ≠ .error .unknownOpcode := by
  unfold decodeSpecial
  split <;> simp [requireFields_eq_error_iff]

/-- REGIMM refuses a word by UnknownRegimm exactly outside its map (R97, R100). -/
theorem decodeRegimm_unknownRegimm_iff (w : Word) :
    (fieldRt w).toNat ∉ [0x00, 0x01, 0x10, 0x11] ↔ decodeRegimm w = .error .unknownRegimm := by
  unfold decodeRegimm
  split
  case h_5 => simp_all [BitVec.toNat_eq]
  all_goals simp [*]

theorem decodeRegimm_ne_unknownOpcode (w : Word) : decodeRegimm w ≠ .error .unknownOpcode := by
  unfold decodeRegimm
  split <;> simp

/-- The decoder refuses a word by UnknownOpcode exactly outside the primary map: the maps below it have other reasons
(R95, R100). -/
theorem decode_unknownOpcode_iff (p : Params) (w : Word) :
    (fieldOp w).toNat ∉ [0x00, 0x01, 0x02, 0x03, 0x04, 0x05, 0x06, 0x07, 0x08, 0x09, 0x0A, 0x0B, 0x0C, 0x0D, 0x0E, 0x0F,
      0x20, 0x21, 0x22, 0x23, 0x24, 0x25, 0x26, 0x28, 0x29, 0x2B] ↔ decode p w = .error .unknownOpcode := by
  unfold decode
  split
  case h_27 => simp_all [BitVec.toNat_eq]
  all_goals simp [*, requireFields_eq_error_iff, decodeSpecial_ne_unknownOpcode, decodeRegimm_ne_unknownOpcode]

/-- Settles O57, one map at a time. -/
theorem wordsOutsideTheMapsAreInvalid : Obligations.WordsOutsideTheMapsAreInvalid := by
  refine fun p w => ⟨decode_unknownOpcode_iff p w, fun hop => ?special, fun hop => ?regimm⟩
  case special => rw [decode_of_special hop, decodeSpecial_unknownFunct_iff p]
  case regimm => rw [decode_of_regimm hop, decodeRegimm_unknownRegimm_iff]

/-- Settles O58: the decoder is run on each word. -/
theorem sampleWordsDecode : Obligations.SampleWordsDecode :=
  ⟨rfl, rfl, rfl, rfl, rfl, rfl, rfl, rfl, rfl, rfl, rfl, rfl, rfl, rfl, rfl, rfl⟩

end Sys2Proof.Machine

/-! PROOFS. The statement of 40_shift.md on the shifts by a register, settled from the arithmetic value of each shift. -/

namespace Sys2Proof.Machine

/-! ## Shifts by a register -/

/-- The amount of a variable shift is RS modulo 32: only its low five bits count (R93). -/
theorem varAmount_eq_mod (w : Word) : varAmount w = w.toNat % 32 := by
  rw [varAmount, BitVec.toNat_and]
  exact Nat.and_two_pow_sub_one_eq_mod _ 5

/-- Settles O16: each shift is the register write of its arithmetic value, by the low five bits of RS. -/
theorem variableShiftsUseFiveBits : Obligations.VariableShiftsUseFiveBits := by
  refine ⟨?_, ?_, ?_, fun s rd rt rs => ?_⟩
  iterate 3 exact specialWords_of_row fun _ _ h => by simp only [decodeSpecial, h, shamtZero]
  rw [← varAmount_eq_mod]
  refine ⟨?sllv, ?srlv, ?srav⟩
  case sllv => rw [← shiftLeft_eq_ofNat]; exact setsReg_of_finishReg rfl
  case srlv => rw [← shiftRightLogical_eq_ofNat]; exact setsReg_of_finishReg rfl
  case srav => rw [← shiftRightArith_eq_ofInt]; exact setsReg_of_finishReg rfl

end Sys2Proof.Machine

/-! PROOFS. The statements of 42_alu.md on the operations that never trap, settled from what each writes to its register:
the wrapped sum and difference, the flag of a comparison, the zero-extended and the upper immediate. -/

namespace Sys2Proof.Machine

/-! ## The ALU's operations on words -/

/-- The difference of two words is that of their unsigned values, modulo 2^32 (R184). -/
theorem sub_eq_ofInt (a b : Word) : a - b = BitVec.ofInt 32 (a.toNat - b.toNat : Int) := by
  rw [Int.sub_eq_add_neg, BitVec.ofInt_add, BitVec.ofInt_neg, BitVec.sub_eq_add_neg]
  simp only [BitVec.ofInt_natCast, BitVec.ofNat_toNat, BitVec.setWidth_eq]

/-- The word of a comparison's answer is 1 where the comparison holds and 0 where it fails (R188, R189). -/
theorem flagWord_decide (c : Prop) [Decidable c] : flagWord (decide c) = if c then 1#32 else 0#32 := by
  simp only [flagWord, decide_eq_true_eq]

/-- The zero-extended immediate has the immediate's bits and 0 above bit 15 (R93). -/
theorem getLsbD_zimm (imm : Imm) (j : Nat) : (zimm imm).getLsbD j = (decide (j < 16) && imm.getLsbD j) := by
  rw [zimm, BitVec.getLsbD_setWidth]
  by_cases hj : j < 16
  · rw [decide_eq_true hj, decide_eq_true (by omega)]
  · rw [BitVec.getLsbD_of_ge imm j (by omega), Bool.and_false, Bool.and_false]

/-- The upper immediate is the immediate times 2^16 (R93). -/
theorem upperImm_eq_ofNat (imm : Imm) : upperImm imm = BitVec.ofNat 32 (imm.toNat * 2 ^ 16) := by
  rw [← BitVec.toNat_setWidth_of_le (w' := 32) (by decide)]
  exact shiftLeft_eq_ofNat (imm.setWidth 32) 16

/-- Settles O27: each is one register write, of a word whose bits the zero extension gives. -/
theorem immediateLogicAndUpper : Obligations.ImmediateLogicAndUpper := by
  refine ⟨?_, ?_, ?_, ?words, fun s rt rs imm => ⟨?andi, ?ori, ?xori, ?lui⟩⟩
  iterate 3 exact fun _ _ h => by simp only [decode, h, noReserved, if_true]
  case words => exact fun _ _ h => by simp only [decode, h, requireFields]
  case andi => exact ⟨_, setsReg_of_finishReg rfl, fun j _ => by rw [BitVec.getLsbD_and, getLsbD_zimm]⟩
  case ori => exact ⟨_, setsReg_of_finishReg rfl, fun j _ => by rw [BitVec.getLsbD_or, getLsbD_zimm]⟩
  case xori => exact ⟨_, setsReg_of_finishReg rfl, fun j _ => by rw [BitVec.getLsbD_xor, getLsbD_zimm]⟩
  case lui => rw [← upperImm_eq_ofNat]; exact setsReg_of_finishReg rfl

/-- Settles O23: each writes the sum or the difference of two words, which is that of their values modulo 2^32. -/
theorem adduAndSubuWrap : Obligations.AdduAndSubuWrap := by
  refine ⟨?_, ?_, fun s rd rs rt => ⟨?addu, ?subu⟩⟩
  iterate 2 exact specialWords_of_row fun _ _ h => by simp only [decodeSpecial, h, shamtZero]
  case addu => rw [← BitVec.add_def]; exact setsReg_of_finishReg rfl
  case subu => rw [← sub_eq_ofInt]; exact setsReg_of_finishReg rfl

/-- Settles O24: a bit of the word written is the operation on that bit of the two registers. -/
theorem registerLogicIsBitwise : Obligations.RegisterLogicIsBitwise := by
  refine ⟨?_, ?_, ?_, fun s rd rs rt => ⟨?and, ?or, ?xor⟩⟩
  iterate 3 exact specialWords_of_row fun _ _ h => by simp only [decodeSpecial, h, shamtZero]
  case and => exact ⟨_, setsReg_of_finishReg rfl, fun _ _ => BitVec.getLsbD_and⟩
  case or => exact ⟨_, setsReg_of_finishReg rfl, fun _ _ => BitVec.getLsbD_or⟩
  case xor => exact ⟨_, setsReg_of_finishReg rfl, fun _ _ => BitVec.getLsbD_xor⟩

/-- Settles O25: each writes the flag of its comparison. -/
theorem setLessThanComparesRegisters : Obligations.SetLessThanComparesRegisters := by
  refine ⟨?_, ?_, fun s rd rs rt => ⟨?slt, ?sltu⟩⟩
  iterate 2 exact specialWords_of_row fun _ _ h => by simp only [decodeSpecial, h, shamtZero]
  case slt => rw [← flagWord_decide]; exact setsReg_of_finishReg rfl
  case sltu => rw [← flagWord_decide]; exact setsReg_of_finishReg rfl

end Sys2Proof.Machine

/-! PROOFS. The statement on the input and the output streams: what an instruction that goes on does to each
(`Effect.input`, `exec_output`), and the step from them. -/

namespace Sys2Proof.Machine

/-! ## The input and the output -/

/-- A write leaves the input (R67). -/
theorem memWrite_input {s t : State} {a v : Word} {force : Bool} (h : memWrite s a v force = .ok t) :
    t.input = s.input := by
  rw [memWrite_keeps h]

/-- Whatever an instruction does, it consumes at most one input byte, from the front: it reads at most once (R67). -/
theorem Effect.input {i : Instr} {s t : State} (h : Effect i s t) : t.input = s.input ∨ t.input = s.input.tail := by
  cases h with
  | register read _ => simpa using read.input
  | hiLo _ => exact .inl rfl
  | transfer link _ => rcases link with rfl | ⟨r, -, rfl⟩ <;> simp [linkTo]
  | store read write _ => simpa [memWrite_input write] using read.input

/-- Of the four effects only a store's write reaches the output (R67). -/
theorem Effect.output_of_not_store {i : Instr} {s t : State} (h : Effect i s t) (hi : isStore i = false) :
    t.output = s.output := by
  cases h with
  | register read _ => rw [setReg_output, read.keeps]
  | hiLo _ => rfl
  | transfer link _ => rcases link with rfl | ⟨r, -, rfl⟩ <;> simp [linkTo]
  | store _ _ hs => simp [hi] at hs

/-- A read of the output port is no port operation, and no Block backs it (R62; D10). -/
theorem memRead_outputPort {s : State} (hl : s.blocks = standardLayout) (force : Bool) :
    memRead s outputPort force = .error .badAddress :=
  memRead_unbacked hl _ _ (by decide) (by decide)

/-- A sub-word store that goes on emits nothing: at the output port its forced read would have trapped (R262; D10). -/
theorem subWordStore_output {s t : State} {a mask v : Word} (hl : s.blocks = standardLayout)
    (h : subWordStore s a mask v = .next t) : t.output = s.output := by
  obtain ⟨w, u, hr, hw⟩ := subWordStore_next h
  rcases memWrite_cases hw with ⟨rfl, -⟩ | ⟨_, -, -, -, rfl⟩
  · simp [memRead_outputPort hl] at hr
  · rw [memRead_keeps hr]

/-- SW that goes on leaves the output or appends the low byte of RT (R61, R263). -/
theorem exec_sw_output {s t : State} {rt rs : RegNum} {imm : Imm} (h : exec (.sw rt imm rs) s = .next t) :
    t.output = s.output ∨ t.output = s.output ++ [(s.reg rt).extractLsb' 0 8] := by
  rcases memWrite_cases (finishWrite_next (aligned_next h).2) with ⟨-, rfl⟩ | ⟨_, -, -, -, rfl⟩
  · exact .inr (by rw [outputWrite_output, BitVec.setWidth_eq_extractLsb' (by decide)])
  · exact .inl rfl

/-- In the standard layout only SW emits, and at most one byte (R262, R263; D10). -/
theorem exec_output {i : Instr} {s t : State} (hl : s.blocks = standardLayout) (h : exec i s = .next t) :
    t.output = s.output ∨
      ∃ rt imm rs, i = .sw rt imm rs ∧ t.output = s.output ++ [(s.reg rt).extractLsb' 0 8] := by
  cases i with
  | sb => exact .inl (subWordStore_output hl h)
  | sh => exact .inl (subWordStore_output hl (aligned_next h).2)
  | sw rt imm rs => exact (exec_sw_output h).imp_right fun ho => ⟨rt, imm, rs, rfl, ho⟩
  | _ => exact .inl ((exec_effect h).output_of_not_store rfl)

/-- Settles O54: under the invariant the fetch changes nothing, and the instruction it fetched runs in the standard
layout. -/
theorem streamsMoveByAtMostOneByte : Obligations.StreamsMoveByAtMostOneByte := by
  intro s t w s1 hinv hf h
  obtain ⟨w', s2, i, hf', hd, -, hx, -⟩ := step_next h
  obtain ⟨rfl, rfl⟩ : w' = w ∧ s2 = s1 := by simpa [hf'] using hf
  obtain rfl := fetch_of_inv hinv hf
  refine ⟨(exec_effect hx).input, ?output⟩
  case output =>
    rcases exec_output (s := advance s2) hinv.layout hx with ho | ⟨rt, imm, rs, rfl, ho⟩
    · exact .inl ho
    · exact .inr ⟨rt, imm, rs, hd, ho⟩

end Sys2Proof.Machine

/-! PROOFS. The statements of 60_exceptions.md: where each trap is raised and the state it leaves. Overflow from the exact
sum and difference, the traps of a store from its read and its write, Invalid from the decoder's answer. -/

namespace Sys2Proof.Machine

/-! ## Overflow -/

/-- The signs show an overflow exactly where a word does not hold the exact sum (R180). -/
theorem addOverflow_iff (a b : Word) : addOverflow a b (a + b) = true ↔ ¬FitsWord (a.toInt + b.toInt) := by
  have h : addOverflow a b (a + b) = a.saddOverflow b := (BitVec.saddOverflow_eq a b).symm
  rw [h, BitVec.saddOverflow, Bool.or_eq_true, decide_eq_true_eq, decide_eq_true_eq]
  omega

/-- The signs show an overflow exactly where a word does not hold the exact difference (R180). -/
theorem subOverflow_iff (a b : Word) : subOverflow a b (a - b) = true ↔ ¬FitsWord (a.toInt - b.toInt) := by
  have h : subOverflow a b (a - b) = a.ssubOverflow b := by
    rw [BitVec.ssubOverflow_eq, subOverflow]
    cases a.msb <;> cases b.msb <;> cases (a - b).msb <;> rfl
  rw [h, BitVec.ssubOverflow, Bool.or_eq_true, decide_eq_true_eq, decide_eq_true_eq]
  omega

/-- The sum of two words is that of their signed values, modulo 2^32 (R180). -/
theorem add_eq_ofInt_toInt (a b : Word) : a + b = BitVec.ofInt 32 (a.toInt + b.toInt) := by
  rw [BitVec.ofInt_add, BitVec.ofInt_toInt, BitVec.ofInt_toInt]

/-- The difference of two words is that of their signed values, modulo 2^32 (R180). -/
theorem sub_eq_ofInt_toInt (a b : Word) : a - b = BitVec.ofInt 32 (a.toInt - b.toInt) :=
  BitVec.eq_of_toInt_eq (by rw [BitVec.toInt_sub, BitVec.toInt_ofInt])

section
variable {s u : State} {r : RegNum} {a b : Word}

/-- An addition whose exact sum fits writes it (R181). -/
theorem addTrapping_of_fits (h : FitsWord (a.toInt + b.toInt)) :
    addTrapping s r a b = finishReg s r (BitVec.ofInt 32 (a.toInt + b.toInt)) := by
  rw [← add_eq_ofInt_toInt]
  exact if_neg (mt (addOverflow_iff a b).1 (not_not_intro h))

/-- An addition whose exact sum does not fit raises Overflow (R181). -/
theorem addTrapping_of_not_fits (h : ¬FitsWord (a.toInt + b.toInt)) :
    addTrapping s r a b = .fault (.trap .overflow s) :=
  if_pos ((addOverflow_iff a b).2 h)

/-- A subtraction whose exact difference fits writes it (R183). -/
theorem subTrapping_of_fits (h : FitsWord (a.toInt - b.toInt)) :
    subTrapping s r a b = finishReg s r (BitVec.ofInt 32 (a.toInt - b.toInt)) := by
  rw [← sub_eq_ofInt_toInt]
  exact if_neg (mt (subOverflow_iff a b).1 (not_not_intro h))

/-- A subtraction whose exact difference does not fit raises Overflow (R183). -/
theorem subTrapping_of_not_fits (h : ¬FitsWord (a.toInt - b.toInt)) :
    subTrapping s r a b = .fault (.trap .overflow s) :=
  if_pos ((subOverflow_iff a b).2 h)

/-- An addition raises Overflow only where its exact sum does not fit: otherwise it goes on (R181). -/
theorem addTrapping_overflow (h : addTrapping s r a b = .fault (.trap .overflow u)) :
    ¬FitsWord (a.toInt + b.toInt) := by
  intro hfit
  rw [addTrapping_of_fits hfit] at h
  cases h

/-- A subtraction raises Overflow only where its exact difference does not fit: otherwise it goes on (R183). -/
theorem subTrapping_overflow (h : subTrapping s r a b = .fault (.trap .overflow u)) :
    ¬FitsWord (a.toInt - b.toInt) := by
  intro hfit
  rw [subTrapping_of_fits hfit] at h
  cases h

end

/-- The sign-extended immediate has the immediate's signed value (R92). -/
theorem toInt_simm (imm : Imm) : (simm imm).toInt = imm.toInt := BitVec.toInt_signExtend_of_le (by decide)

/-- Settles O21: each is the trapping operation on two registers. -/
theorem addAndSubTrapExactlyOnOverflow : Obligations.AddAndSubTrapExactlyOnOverflow := by
  refine ⟨?_, ?_, fun s rd rs rt => ⟨fun h => ?sum, fun h => ?sumTraps, fun h => ?difference, fun h => ?differenceTraps⟩⟩
  iterate 2 exact specialWords_of_row fun _ _ h => by simp only [decodeSpecial, h, shamtZero]
  case sum => exact setsReg_of_finishReg (addTrapping_of_fits h)
  case sumTraps => exact addTrapping_of_not_fits h
  case difference => exact setsReg_of_finishReg (subTrapping_of_fits h)
  case differenceTraps => exact subTrapping_of_not_fits h

/-- Settles O22: ADDI is the trapping addition of a word with the immediate's signed value. -/
theorem addiTrapsExactlyOnOverflow : Obligations.AddiTrapsExactlyOnOverflow := by
  refine ⟨fun _ _ h => by simp only [decode, h, noReserved, if_true], fun s rt rs imm => ?_⟩
  rw [← toInt_simm]
  exact ⟨fun h => setsReg_of_finishReg (addTrapping_of_fits h), addTrapping_of_not_fits⟩

/-! ## Loads and stores never overflow -/

section
variable {s u : State}

/-- The alignment check raises no Overflow (R252). -/
theorem aligned_overflow {a : Word} {n : Nat} {rest : Out} (h : aligned s a n rest = .fault (.trap .overflow u)) :
    rest = .fault (.trap .overflow u) := by
  unfold aligned at h
  split at h
  · exact h
  · cases h

/-- A read raises no Overflow: one after it is raised by what follows. -/
theorem withRead_overflow {a : Word} {force : Bool} {k : Word → State → Out}
    (h : withRead s a force k = .fault (.trap .overflow u)) : ∃ w s', k w s' = .fault (.trap .overflow u) := by
  unfold withRead at h
  split at h
  · cases h
  · exact ⟨_, _, h⟩

theorem withRead_finishReg_ne_overflow {a : Word} {force : Bool} {r : RegNum} {value : Word → Word} :
    withRead s a force (fun w s' => finishReg s' r (value w)) ≠ .fault (.trap .overflow u) := by
  intro h
  obtain ⟨_, _, hk⟩ := withRead_overflow h
  cases hk

theorem finishWrite_ne_overflow {a v : Word} : finishWrite s a v ≠ .fault (.trap .overflow u) := by
  intro h
  unfold finishWrite at h
  split at h <;> cases h

theorem subWordStore_ne_overflow {a mask v : Word} : subWordStore s a mask v ≠ .fault (.trap .overflow u) := by
  intro h
  obtain ⟨_, _, hk⟩ := withRead_overflow h
  exact finishWrite_ne_overflow hk

end

/-- Settles O28, by the class of the instruction: outside the three, the ALU, the shifts and the transfers go on, DIV is
at worst Undefined, and an access of memory traps as Memory. -/
theorem overflowOnlyByAddSubAddi : Obligations.OverflowOnlyByAddSubAddi := by
  intro i s u h
  cases i with
  | add rd rs rt => exact .inl ⟨rd, rs, rt, rfl, addTrapping_overflow h⟩
  | sub rd rs rt => exact .inr (.inl ⟨rd, rs, rt, rfl, subTrapping_overflow h⟩)
  | addi rt rs imm => exact .inr (.inr ⟨rt, rs, imm, rfl, toInt_simm imm ▸ addTrapping_overflow h⟩)
  | sll | srl | sra | sllv | srlv | srav | jr | jalr | mfhi | mthi | mflo | mtlo | mult | multu | addu | subu | and | or
  | xor | slt | sltu | bltz | bgez | bltzal | bgezal | j | jal | beq | bne | blez | bgtz | addiu | slti | sltiu | andi
  | ori | xori | lui => cases h
  | div => exact absurd h execDiv_ne_trap
  | divu => exact absurd h execDivu_ne_trap
  | lb | lbu | lwl | lwr => exact absurd h withRead_finishReg_ne_overflow
  | lh | lhu | lw => exact absurd (aligned_overflow h) withRead_finishReg_ne_overflow
  | sb => exact absurd h subWordStore_ne_overflow
  | sh => exact absurd (aligned_overflow h) subWordStore_ne_overflow
  | sw => exact absurd (aligned_overflow h) finishWrite_ne_overflow

/-! ## Misaligned accesses -/

/-- A misaligned access ends the instruction before anything of it runs (R252; D15). -/
theorem aligned_of_mod_ne {a : Word} {n : Nat} (h : a.toNat % n ≠ 0) (s : State) (rest : Out) :
    aligned s a n rest = .fault (.trap (.memory .misaligned) s) := if_neg h

/-- Settles O42: the alignment check stands first in all five. -/
theorem misalignedAccessesTrap : Obligations.MisalignedAccessesTrap :=
  fun s _ _ _ =>
    ⟨fun h => ⟨aligned_of_mod_ne h s _, aligned_of_mod_ne h s _, aligned_of_mod_ne h s _⟩,
      fun h => ⟨aligned_of_mod_ne h s _, aligned_of_mod_ne h s _⟩⟩

/-! ## Stores that trap -/

/-- A write that fails ends the instruction in the state it found (R279). -/
theorem finishWrite_of_error {s : State} {a v : Word} {r : MemoryReason} (h : memWrite s a v false = .error r) :
    finishWrite s a v = .fault (.trap (.memory r) s) := by
  simp only [finishWrite, h, raise]

/-- A sub-word store whose read answers is the write of the merged word in the state after it (R262). -/
theorem subWordStore_of_ok {s s' : State} {a w : Word} (h : memRead s a true = .ok (w, s')) (mask v : Word) :
    subWordStore s a mask v = finishWrite s' a ((w &&& ~~~mask) ||| v) := by
  simp only [subWordStore, withRead, h]

section
variable {s : State} {a : Word} (mask v : Word)

/-- The read-only Blocks hold whole words: the word around an address lies in them with it (R52, R250). -/
theorem inReadOnly_wordAddr (h : InReadOnly a.toNat) : InReadOnly (wordAddr a).toNat := by
  rw [toNat_wordAddr]
  omega

/-- A write to a read-only Block is denied (R54, R263). -/
theorem finishWrite_readOnly (hl : s.blocks = standardLayout) (h : InReadOnly a.toNat) :
    finishWrite s a v = .fault (.trap (.memory .permission) s) :=
  finishWrite_of_error (by simp [memWrite_readOnly hl a v false h])

/-- A write outside the Blocks and the output port is out of bounds (R58, R263; D10). -/
theorem finishWrite_unbacked (hl : s.blocks = standardLayout) (hb : ¬Backed a.toNat) (hp : a ≠ outputPort) :
    finishWrite s a v = .fault (.trap (.memory .badAddress) s) :=
  finishWrite_of_error (memWrite_unbacked hl a v false hb hp)

/-- A sub-word store to a read-only Block reads, by force, and is denied its write (R262; C3). -/
theorem subWordStore_readOnly (hl : s.blocks = standardLayout) (h : InReadOnly a.toNat) :
    subWordStore s (wordAddr a) mask v = .fault (.trap (.memory .permission) s) := by
  have hro : InReadOnly (wordAddr a).toNat := inReadOnly_wordAddr h
  rw [subWordStore_of_ok (memRead_backed hl (wordAddr a) true (hro.imp_right .inl)), finishWrite_readOnly _ hl hro]

/-- A sub-word store outside the Blocks and the input port's word is out of bounds at its read (R262; D10). -/
theorem subWordStore_unbacked (hl : s.blocks = standardLayout) (hb : ¬Backed a.toNat) (hp : ¬InInputWord a.toNat) :
    subWordStore s (wordAddr a) mask v = .fault (.trap (.memory .badAddress) s) :=
  withRead_of_error (memRead_unbacked hl _ _ (mt backed_wordAddr.1 hb) (wordAddr_ne_inputPort hp)) _

/-- Every address of the input port's word has the port as the word around it (R59, R250). -/
theorem wordAddr_of_inInputWord (h : InInputWord a.toNat) : wordAddr a = inputPort := by
  apply BitVec.eq_of_toNat_eq
  rw [toNat_wordAddr]
  change 4 * (a.toNat / 4) = 0x30000000
  omega

/-- A read of the input port answers the port's word and drops the first byte of the input, if there is one (R60). -/
theorem inputRead_eq (s : State) : inputRead s = (portWord s.input, { s with input := s.input.tail }) := by
  obtain ⟨_, _, _, _, _, _, _, _, _, _, input, _, _⟩ := s
  cases input with
  | nil => rfl
  | cons b rest => rfl

/-- A sub-word store at the input port's word consumes a byte by its read, and its write is out of bounds (R262; D10). -/
theorem subWordStore_inputWord (hl : s.blocks = standardLayout) (h : InInputWord a.toNat) :
    subWordStore s (wordAddr a) mask v = .fault (.trap (.memory .badAddress) { s with input := s.input.tail }) := by
  have hread := (memRead_input s true).trans (congrArg Except.ok (inputRead_eq s))
  rw [wordAddr_of_inInputWord h, subWordStore_of_ok hread]
  exact finishWrite_unbacked (s := { s with input := s.input.tail }) _ hl (by decide) (by decide)

end

/-- Settles O45: SB and SH are the sub-word store at the word around the address, SW the write at it. -/
theorem storesToReadOnlyBlocksTrap : Obligations.StoresToReadOnlyBlocksTrap := by
  intro s rt imm rs hl a h
  exact ⟨subWordStore_readOnly _ _ hl h, fun ha => (aligned_of_mod ha s _).trans (subWordStore_readOnly _ _ hl h),
    fun ha => (aligned_of_mod ha s _).trans (finishWrite_readOnly _ hl h)⟩

/-- Settles O46: the sub-word store traps at its read, or at the input port at its write after it; SW at its write. -/
theorem storesOutsideTheBlocksTrap : Obligations.StoresOutsideTheBlocksTrap := by
  intro s rt imm rs hl a hb
  refine ⟨fun hp => ⟨?sb, fun ha => ?sh⟩, fun hp => ⟨?sbPort, fun ha => ?shPort⟩, fun ha hout => ?sw⟩
  case sb => exact subWordStore_unbacked _ _ hl hb hp
  case sh => exact (aligned_of_mod ha s _).trans (subWordStore_unbacked _ _ hl hb hp)
  case sbPort => exact subWordStore_inputWord _ _ hl hp
  case shPort => exact (aligned_of_mod ha s _).trans (subWordStore_inputWord _ _ hl hp)
  case sw =>
    exact (aligned_of_mod ha s _).trans (finishWrite_unbacked _ hl hb (toNat_ne_of_ne hout outputPort rfl))

/-! ## Invalid -/

section
variable {s s1 : State} {w : Word}

/-- A fetched word that the decoder rejects ends the run in the advanced state (R113, R279). -/
theorem step_of_decode_error {r : InvalidReason} (hf : fetch s = .ok (w, s1)) (hd : decode s.params w = .error r) :
    step s = .fault (.trap (.invalid r) (advance s1)) := by
  simp only [step, hf, hd, raise]

/-- A fetched word that decodes is executed in the advanced state unless the delay-slot policy forbids it (R114, R238). -/
theorem step_of_decode_ok {i : Instr} (hf : fetch s = .ok (w, s1)) (hd : decode s.params w = .ok i) :
    step s = if delaySlotTraps s.params s.jumped i then .fault (.trap (.invalid .delaySlotBranch) (advance s1))
      else terminate (exec i (advance s1)) := by
  simp only [step, hf, hd, raise]

/-- A fetch leaves the latch (R111, R112). -/
theorem fetch_jumped (hf : fetch s = .ok (w, s1)) : s1.jumped = s.jumped := by
  rw [memRead_keeps (fetch_ok hf).2]

/-- With the latch set the advance takes the pending target (R112). -/
theorem advance_of_jumped (h : s.jumped = true) : advance s = { s with pc := s.pcNext, jumped := false } := by
  simp only [advance, h, if_true]

end

/-- Settles O5: the decoder's reason, in the advanced state. -/
theorem invalidWordEndsTheRun : Obligations.InvalidWordEndsTheRun :=
  fun _ _ _ _ hf hd => step_of_decode_error hf hd

/-- Settles O6: the latch is still set when PC is advanced, and the policy alone decides. -/
theorem transferInDelaySlotTrapsOrRuns : Obligations.TransferInDelaySlotTrapsOrRuns := by
  intro s s1 w i hf hd hi hj
  rw [step_of_decode_ok hf hd, advance_of_jumped ((fetch_jumped hf).trans hj), delaySlotTraps, hj, hi]
  exact ⟨fun hp => by simp [hp], fun hp => by simp [hp]⟩

end Sys2Proof.Machine

/-! PROOFS. The frames of `exec` that follow from its effects (`exec_effect`), how an instruction and a step can end
(`exec_concludes`, `step_cases`), and the invariant of a run (10_state.md; 30_encoding.md section 6; 20_memory.md
section 8). -/

namespace Sys2Proof.Machine

/-! ## What no instruction writes -/

/-- None of the four effects writes PC, the fetch window, the descriptors or the parameters (R26, R33). -/
theorem Effect.pc_and_fixed {i : Instr} {s t : State} (h : Effect i s t) : t.pc = s.pc ∧ SameFixed s t := by
  cases h with
  | register read _ =>
    obtain ⟨-, ⟨hpc, -, -⟩, -, -, -, hfixed⟩ := read.frame
    simpa [SameFixed] using And.intro hpc hfixed
  | hiLo _ => exact ⟨rfl, rfl, rfl, rfl, rfl⟩
  | transfer link _ => rcases link with rfl | ⟨r, -, rfl⟩ <;> simp [SameFixed, linkTo]
  | store read write _ =>
    rw [memWrite_keeps write, read.keeps]
    exact ⟨rfl, rfl, rfl, rfl, rfl⟩

/-- Settles O9, from the effects of an instruction that goes on. -/
theorem noInstructionWritesPcOrTheFixedState : Obligations.NoInstructionWritesPcOrTheFixedState :=
  fun _ _ _ h => (exec_effect h).pc_and_fixed

/-- A register that is not the destination is written neither by the last act of the instruction nor by the link
(R22, R23, R223). -/
theorem Effect.reg_of_not_dest {i : Instr} {s t : State} (h : Effect i s t) {k : RegNum}
    (hk : destReg i ≠ some k) : t.reg k = s.reg k := by
  cases h with
  | register read dest =>
    have hne : k ≠ _ := fun e => hk (e ▸ dest)
    exact (reg_setReg_of_ne _ _ hne).trans (read.frame.1 k)
  | hiLo _ => exact setHiLo_reg ..
  | transfer link _ =>
    rcases link with rfl | ⟨r, dest, rfl⟩
    · exact branchIf_reg ..
    · have hne : k ≠ r := fun e => hk (e ▸ dest)
      exact (branchIf_reg ..).trans (reg_setReg_of_ne _ _ hne)
  | store read write _ =>
    rw [memWrite_keeps write, read.keeps]
    rfl

/-- Settles O10, from the effects of an instruction that goes on. -/
theorem registersChangeOnlyAtTheDestination : Obligations.RegistersChangeOnlyAtTheDestination :=
  fun _ _ _ h _ hk => (exec_effect h).reg_of_not_dest hk

/-- Of the four effects only a store's write reaches storage (R65). -/
theorem Effect.mem_cases {i : Instr} {s t : State} (h : Effect i s t) :
    t.mem = s.mem ∨ isStore i = true ∧ ∃ u a v, Reads s u ∧ memWrite u a v false = .ok t := by
  cases h with
  | register read _ => exact .inl (by rw [setReg_mem, read.keeps])
  | hiLo _ => exact .inl rfl
  | transfer link _ => exact .inl (by rcases link with rfl | ⟨r, -, rfl⟩ <;> simp [linkTo])
  | store read write hs => exact .inr ⟨hs, _, _, _, read, write⟩

/-- An instruction that is no store leaves storage (R65). -/
theorem Effect.mem_of_not_store {i : Instr} {s t : State} (h : Effect i s t) (hi : isStore i = false) :
    t.mem = s.mem :=
  h.mem_cases.resolve_right fun hs => by simp [hi] at hs

/-- Settles O12: storage and the output are reached by a store's write alone. -/
theorem onlyStoresChangeMemory : Obligations.OnlyStoresChangeMemory := by
  intro i s t h hi
  have heffect := exec_effect h
  refine ⟨fun a => ?_, heffect.output_of_not_store hi⟩
  rw [State.byte, State.byte, heffect.mem_of_not_store hi]

/-! ## How an instruction can end -/

/-- The three ways an instruction can end: it goes on, traps, or is the undefined division (R118, R276). -/
inductive Concludes : Out → Prop
  | next (t : State) : Concludes (.next t)
  | trap (tr : Trap) (u : State) : Concludes (.fault (.trap tr u))
  | undefined (u : State) : Concludes (.fault (.undefined .divOverflow u))

section
variable {s : State}

theorem addTrapping_concludes {r : RegNum} {a b : Word} : Concludes (addTrapping s r a b) := by
  unfold addTrapping
  split
  · exact .trap _ _
  · exact .next _

theorem subTrapping_concludes {r : RegNum} {a b : Word} : Concludes (subTrapping s r a b) := by
  unfold subTrapping
  split
  · exact .trap _ _
  · exact .next _

/-- DIV goes on, or is undefined (R170). -/
theorem execDiv_concludes {rs rt : RegNum} : Concludes (execDiv rs rt s) := by
  unfold execDiv
  split
  · exact .next _
  · split
    · split
      · exact .undefined _
      · exact .next _
    · exact .next _

/-- DIVU goes on (R171). -/
theorem execDivu_concludes {rs rt : RegNum} : Concludes (execDivu rs rt s) := by
  unfold execDivu
  split <;> exact .next _

theorem aligned_concludes {a : Word} {n : Nat} {rest : Out} (h : Concludes rest) :
    Concludes (aligned s a n rest) := by
  unfold aligned
  split
  · exact h
  · exact .trap _ _

theorem withRead_concludes {a : Word} {force : Bool} {k : Word → State → Out} (h : ∀ w s', Concludes (k w s')) :
    Concludes (withRead s a force k) := by
  unfold withRead
  split
  · exact .trap _ _
  · exact h _ _

/-- A read whose word goes to a register goes on or traps (R252). -/
theorem withRead_finishReg_concludes {a : Word} {force : Bool} {r : RegNum} {value : Word → Word} :
    Concludes (withRead s a force fun w s' => finishReg s' r (value w)) :=
  withRead_concludes fun _ _ => .next _

theorem finishWrite_concludes {a v : Word} : Concludes (finishWrite s a v) := by
  unfold finishWrite
  split
  · exact .trap _ _
  · exact .next _

theorem subWordStore_concludes {a mask v : Word} : Concludes (subWordStore s a mask v) :=
  withRead_concludes fun _ _ => finishWrite_concludes

end

/-- No instruction is refused and none ends the run normally by itself (R118). -/
theorem exec_concludes (i : Instr) (s : State) : Concludes (exec i s) := by
  cases i with
  | sll | srl | sra | sllv | srlv | srav | jr | jalr | mfhi | mthi | mflo | mtlo | mult | multu | addu | subu | and | or
  | xor | slt | sltu | bltz | bgez | bltzal | bgezal | j | jal | beq | bne | blez | bgtz | addiu | slti | sltiu | andi
  | ori | xori | lui => exact .next _
  | add | addi => exact addTrapping_concludes
  | sub => exact subTrapping_concludes
  | div => exact execDiv_concludes
  | divu => exact execDivu_concludes
  | lb | lbu | lwl | lwr => exact withRead_finishReg_concludes
  | lh | lhu | lw => exact aligned_concludes withRead_finishReg_concludes
  | sb => exact subWordStore_concludes
  | sh => exact aligned_concludes subWordStore_concludes
  | sw => exact aligned_concludes finishWrite_concludes

/-! ## How a step can end -/

/-- A step traps before it executes, or is the execution of the instruction it fetched (R117). -/
theorem step_cases (s : State) :
    (∃ tr u, step s = .fault (.trap tr u)) ∨
    ∃ w s1 i, fetch s = .ok (w, s1) ∧ decode s.params w = .ok i ∧ step s = terminate (exec i (advance s1)) := by
  cases hf : fetch s with
  | error r => exact .inl ⟨_, _, step_of_fetch_error hf⟩
  | ok p =>
    obtain ⟨w, s1⟩ := p
    cases hd : decode s.params w with
    | error r => exact .inl ⟨_, _, step_of_decode_error hf hd⟩
    | ok i =>
      have hstep := step_of_decode_ok hf hd
      by_cases hslot : delaySlotTraps s.params s.jumped i = true
      · exact .inl ⟨_, _, hstep.trans (if_pos hslot)⟩
      · exact .inr ⟨w, s1, i, rfl, hd, hstep.trans (if_neg hslot)⟩

/-- PC = 0 after an instruction that goes on ends the run with register 2's low byte (R116). -/
theorem terminate_next_of_pc_eq_zero {u : State} (h : u.pc = 0#32) :
    terminate (.next u) = .fault (.exit ((u.reg 2#5).setWidth 8) u) := if_pos h

/-- With another PC the run goes on (R117). -/
theorem terminate_next_of_pc_ne_zero {u : State} (h : u.pc ≠ 0#32) : terminate (.next u) = .next u := if_neg h

section
variable {o : Out} (ho : Concludes o)
include ho

/-- The check of PC turns an instruction that goes on at most into an exit, so the step it makes goes on or ends the run
by a trap, an exit or the undefined division (R117, R118). -/
theorem terminate_of_concludes :
    (∃ t, terminate o = .next t) ∨ (∃ tr u, terminate o = .fault (.trap tr u)) ∨
      (∃ st u, terminate o = .fault (.exit st u)) ∨ (∃ u, terminate o = .fault (.undefined .divOverflow u)) := by
  cases ho with
  | next t =>
    by_cases hpc : t.pc = 0#32
    · exact .inr (.inr (.inl ⟨_, t, terminate_next_of_pc_eq_zero hpc⟩))
    · exact .inl ⟨t, terminate_next_of_pc_ne_zero hpc⟩
  | trap tr u => exact .inr (.inl ⟨tr, u, rfl⟩)
  | undefined u => exact .inr (.inr (.inr ⟨u, rfl⟩))

/-- A normal end comes from an instruction that went on and left PC = 0 (R116). -/
theorem terminate_exit {u : State} {st : Byte} (h : terminate o = .fault (.exit st u)) :
    o = .next u ∧ u.pc = 0#32 ∧ st = (u.reg 2#5).setWidth 8 := by
  cases ho with
  | next t =>
    by_cases hpc : t.pc = 0#32
    · rw [terminate_next_of_pc_eq_zero hpc] at h
      cases h
      exact ⟨rfl, hpc, rfl⟩
    · rw [terminate_next_of_pc_ne_zero hpc] at h
      cases h
  | trap tr v => cases h
  | undefined v => cases h

end

/-- Settles O13: a step traps before it executes, or ends as the instruction it executes lets it. -/
theorem everyStepContinuesOrEndsTheRun : Obligations.EveryStepContinuesOrEndsTheRun := by
  intro s
  rcases step_cases s with htrap | ⟨w, s1, i, -, -, hstep⟩
  · exact .inr (.inl htrap)
  · rw [hstep]
    exact terminate_of_concludes (exec_concludes i (advance s1))

/-- A step that ends the run normally executed an instruction that left PC = 0 (R116). -/
theorem step_exit {s u : State} {st : Byte} (h : step s = .fault (.exit st u)) :
    ∃ w s1 i, fetch s = .ok (w, s1) ∧ exec i (advance s1) = .next u ∧ u.pc = 0#32 ∧
      st = (u.reg 2#5).setWidth 8 := by
  rcases step_cases s with ⟨tr, v, htrap⟩ | ⟨w, s1, i, hf, -, hstep⟩
  · rw [htrap] at h
    cases h
  · rw [hstep] at h
    exact ⟨w, s1, i, hf, terminate_exit (exec_concludes i (advance s1)) h⟩

/-! ## PC and the latch -/

/-- The advance after a fetch moves PC by the latch the step began with (R111, R112). -/
theorem advance_pc_of_fetch {s s1 : State} {w : Word} (hf : fetch s = .ok (w, s1)) :
    (advance s1).pc = if s.jumped then s.pcNext else s.pc + 4#32 := by
  rw [memRead_keeps (fetch_ok hf).2]
  rfl

/-- The PC an instruction leaves is the advanced one (R112, R114). -/
theorem pc_of_fetch_exec {s s1 t : State} {w : Word} {i : Instr} (hf : fetch s = .ok (w, s1))
    (hx : exec i (advance s1) = .next t) : t.pc = if s.jumped then s.pcNext else s.pc + 4#32 :=
  (exec_effect hx).pc_and_fixed.1.trans (advance_pc_of_fetch hf)

/-- A step that goes on moves PC by the latch it began with (R112). -/
theorem step_pc {s t : State} (h : step s = .next t) : t.pc = if s.jumped then s.pcNext else s.pc + 4#32 := by
  obtain ⟨_, _, _, hf, -, -, hx, -⟩ := step_next h
  exact pc_of_fetch_exec hf hx

/-- Settles O8: each of the two steps moves PC by the latch it began with. -/
theorem pcFollowsTheLatch : Obligations.PcFollowsTheLatch :=
  fun _ _ h => ⟨step_pc h, fun _ h' => step_pc h'⟩

/-- Under either value of PC_LIMIT_MODE a valid PC is at most PCMax (R25). -/
theorem pcUpper_le {s : State} {p : Word} (h : pcUpper s p = true) : p.toNat ≤ s.pcMax.toNat := by
  unfold pcUpper at h
  split at h
  · exact of_decide_eq_true h
  · exact le_of_add_le_left (of_decide_eq_true h)

/-- From a state of the invariant PC + 4 after a fetch is not 0: PC lies far below the wrap (R25, R26). -/
theorem pc_add_four_ne_zero_of_inv {s s1 : State} {w : Word} (hi : Inv s) (hf : fetch s = .ok (w, s1)) :
    s.pc + 4#32 ≠ 0#32 := by
  intro h
  have hle : s.pc.toNat ≤ s.pcMax.toNat := pcUpper_le ((pcValid_iff s s.pc).1 (fetch_ok hf).1).2.2
  have hmax : s.pcMax.toNat ≤ 0x11000000 := hi.window.2.2
  bv_omega

/-- Settles O7: the step executed an instruction, which left PC as advanced, and PC + 4 is not 0 under the invariant. -/
theorem exitIsTheSlotOfATransferToZero : Obligations.ExitIsTheSlotOfATransferToZero := by
  refine ⟨fun s st u hinv h => ?exits, fun s s1 w i u hf hd hi hj hn hx => ?slot⟩
  case exits =>
    obtain ⟨w, s1, i, hf, hx, hpc, hst⟩ := step_exit h
    have hadv := pc_of_fetch_exec hf hx
    by_cases hj : s.jumped = true
    · rw [if_pos hj] at hadv
      exact ⟨hj, hadv.symm.trans hpc, hpc, hst⟩
    · rw [if_neg hj] at hadv
      exact absurd (hadv.symm.trans hpc) (pc_add_four_ne_zero_of_inv hinv hf)
  case slot =>
    have hpc : u.pc = 0#32 := by rw [pc_of_fetch_exec hf hx, hj, if_pos rfl, hn]
    rw [step_of_decode_ok hf hd, hx, terminate_next_of_pc_eq_zero hpc, delaySlotTraps, hi]
    simp

/-! ## The step as an execution -/

/-- A word is fetched from a valid PC in instruction memory as its four bytes (R63, R111). -/
theorem fetch_of_instr {s : State} (hl : s.blocks = standardLayout) (hv : pcValid s s.pc = true)
    (hlo : 0x10000000 ≤ s.pc.toNat) (hhi : s.pc.toNat < 0x11000000) :
    fetch s = .ok (s.byte s.pc.toNat ++ s.byte (s.pc.toNat + 1) ++ s.byte (s.pc.toNat + 2) ++
      s.byte (s.pc.toNat + 3), s) := by
  have hal : 4 * (s.pc.toNat / 4) = s.pc.toNat := by
    have := ((pcValid_iff s s.pc).1 hv).1
    omega
  rw [fetch_of_valid hv, memRead_backed hl _ _ (.inr (.inl ⟨hlo, hhi⟩)), hal, Memory.getWord,
    wordOfBytes_eq_append]
  rfl

/-- The delay-slot policy lets an instruction run unless it is a control transfer in a slot under `Trap` (R238). -/
theorem delaySlotTraps_eq_false {p : Params} {inSlot : Bool} {i : Instr}
    (h : inSlot = true → isControlTransfer i = true → p.delaySlotBranch = .latch) :
    delaySlotTraps p inSlot i = false := by
  cases inSlot with
  | false => rfl
  | true =>
    cases hi : isControlTransfer i with
    | false => simp [delaySlotTraps, hi]
    | true => simp [delaySlotTraps, h rfl hi]

/-- Settles O3: the fetch reads the four bytes, and the policy lets the instruction run. -/
theorem stepRunsTheDecodedInstruction : Obligations.StepRunsTheDecodedInstruction := by
  intro s i hl hv hlo hhi hd hpolicy s2
  rw [step_of_decode_ok (fetch_of_instr hl hv hlo hhi) hd, delaySlotTraps_eq_false hpolicy]
  change terminate (exec i s2) = _
  cases exec i s2 <;> rfl

/-! ## The invariant of a run -/

/-- In the standard layout a normal write emits, or stores one word in data memory: every other Block denies it and
every other address is out of bounds (R54, R56, R62). -/
theorem memWrite_normal_cases {s t : State} {a v : Word} (hl : s.blocks = standardLayout)
    (h : memWrite s a v false = .ok t) :
    t = outputWrite s v ∨
      (InData a.toNat ∧ t = { s with mem := Memory.setWord s.mem (4 * (a.toNat / 4)) v }) := by
  by_cases hd : InData a.toNat
  · rw [memWrite_data hl a v false hd] at h
    exact .inr ⟨hd, (Except.ok.inj h).symm⟩
  by_cases hr : InReadOnly a.toNat
  · simp [memWrite_readOnly hl a v false hr] at h
  by_cases ho : a = outputPort
  · rw [ho, memWrite_output] at h
    exact .inl (Except.ok.inj h).symm
  · rw [memWrite_unbacked hl a v false (by omega) ho] at h
    cases h

/-- Storage `m'` is `m`, or `m` after one word stored in data memory. -/
def DataStore (m m' : List Host.Cell) : Prop :=
  m' = m ∨ ∃ a v, 0x20000000 ≤ a ∧ a + 4 ≤ 0x24000000 ∧ m' = Memory.setWord m a v

theorem DataStore.wf {m m' : List Host.Cell} (h : DataStore m m') (hm : Memory.wf m = true) :
    Memory.wf m' = true := by
  rcases h with rfl | ⟨a, v, -, -, rfl⟩
  · exact hm
  · exact setWord_wf hm a v

theorem DataStore.backed {m m' : List Host.Cell} (h : DataStore m m') (hm : storageBacked m) :
    storageBacked m' := by
  rcases h with rfl | ⟨a, v, hlo, hhi, rfl⟩
  · exact hm
  · intro c hc
    rcases mem_setWord hc with hnew | hold
    · exact .inr (.inr (by omega))
    · exact hm c hold

/-- The bytes below data memory, those of the sentinel word and of instruction memory among them, stay. -/
theorem DataStore.getByte_of_lt {m m' : List Host.Cell} (h : DataStore m m') (hm : Memory.wf m = true) {x : Nat}
    (hx : x < 0x20000000) : Memory.getByte m' x = Memory.getByte m x := by
  rcases h with rfl | ⟨a, v, hlo, -, rfl⟩
  · rfl
  · rw [getByte_setWord hm, if_neg (by omega)]

/-- In the standard layout an instruction that goes on stores at most one word, in data memory (R65). -/
theorem Effect.dataStore {i : Instr} {s t : State} (h : Effect i s t) (hl : s.blocks = standardLayout) :
    DataStore s.mem t.mem := by
  rcases h.mem_cases with hmem | ⟨-, u, a, v, read, write⟩
  · exact .inl hmem
  · rw [read.keeps] at write
    rcases memWrite_normal_cases (s := { s with input := u.input }) hl write with rfl | ⟨hd, rfl⟩
    · exact .inl rfl
    · exact .inr ⟨_, _, by omega, by omega, rfl⟩

/-- From a state of the invariant a step that goes on stores at most one word, in data memory (R67). -/
theorem step_dataStore {s t : State} (hinv : Inv s) (h : step s = .next t) : DataStore s.mem t.mem := by
  obtain ⟨w, s1, i, hf, -, -, hx, -⟩ := step_next h
  obtain rfl := fetch_of_inv hinv hf
  exact (exec_effect hx).dataStore hinv.layout

/-- A step that goes on keeps the fetch window, the descriptors and the parameters (R25, R33). -/
theorem step_sameFixed {s t : State} (h : step s = .next t) : SameFixed s t := by
  obtain ⟨w, s1, i, hf, -, -, hx, -⟩ := step_next h
  have hfixed : SameFixed (advance s1) t := (exec_effect hx).pc_and_fixed.2
  rw [memRead_keeps (fetch_ok hf).2] at hfixed
  exact hfixed

/-- Settles O51: storage by the one word a step can store, the fixed state by its frame, PC by the check that lets the
run go on. -/
theorem everyStepKeepsTheInvariant : Obligations.EveryStepKeepsTheInvariant := by
  intro s t hinv h
  have hstore : DataStore s.mem t.mem := step_dataStore hinv h
  obtain ⟨hmin, hmax, hblocks, hparams⟩ := step_sameFixed h
  obtain ⟨_, _, _, -, -, -, -, hpc⟩ := step_next h
  exact {
    memWf := hstore.wf hinv.memWf
    backed := hstore.backed hinv.backed
    sentinelZero := fun a ha => (hstore.getByte_of_lt hinv.memWf (by omega)).trans (hinv.sentinelZero a ha)
    layout := hblocks.trans hinv.layout
    window := by
      rw [hmin, hmax]
      exact hinv.window
    legal := by
      rw [hparams]
      exact hinv.legal
    running := hpc }

/-- A run of `n + 1` steps that goes on is a step and a run of `n` steps. -/
theorem run_succ_next {n : Nat} {s t : State} (h : core.run (n + 1) s = .next t) :
    ∃ u, step s = .next u ∧ core.run n u = .next t := by
  simp only [Host.Core.run] at h
  split at h
  · rename_i u hu
    exact ⟨u, hu, h⟩
  · cases h
  · cases h

/-- Settles O52, by induction on the number of steps: each keeps the invariant and the bytes below data memory. -/
theorem instructionMemoryNeverChanges : Obligations.InstructionMemoryNeverChanges := by
  intro n
  induction n with
  | zero =>
    intro s t _ h a _ _
    cases h
    rfl
  | succ n ih =>
    intro s t hinv h a hlo hhi
    obtain ⟨u, hstep, hrun⟩ := run_succ_next h
    calc t.byte a = u.byte a := ih u t (everyStepKeepsTheInvariant s u hinv hstep) hrun a hlo hhi
      _ = s.byte a := (step_dataStore hinv hstep).getByte_of_lt hinv.memWf (by omega)

end Sys2Proof.Machine

/-! PROOFS. The statements of 30_encoding.md on the encoder: what the decoder reads from the words of the three formats,
and that what it reads is well-formed. -/

namespace Sys2Proof.Machine

/-! ## Decoding an encoded instruction -/

/-- Without a reserved field set the instruction stands (R101). -/
@[simp] theorem requireFields_true (i : Instr) : requireFields true i = .ok i := rfl

/-- A word of the R format is read by the function map (R91, R96). -/
theorem decode_encodeR (p : Params) (rs rt rd : RegNum) (sh : Shamt) (funct : BitVec 6) :
    decode p (encodeR rs rt rd sh funct) = decodeSpecial p (encodeR rs rt rd sh funct) :=
  decode_of_special (fieldOp_encodeR ..) p

/-- A word of the I format with opcode 0x01 is read by the map on `rt` (R91, R97). -/
theorem decode_encodeI_regimm (p : Params) (rs rt : RegNum) (imm : Imm) :
    decode p (encodeI 0x01#6 rs rt imm) = decodeRegimm (encodeI 0x01#6 rs rt imm) :=
  decode_of_regimm (fieldOp_encodeI ..) p

/-- Settles O55, by the map that holds the instruction: its fields read as encoded, and the reserved ones are zero, JAL's
by its well-formedness. -/
theorem decodeOfEncodeIsTheInstruction : Obligations.DecodeOfEncodeIsTheInstruction := by
  intro p i hwf
  cases i with
  | sll | srl | sra | sllv | srlv | srav | jr | jalr | mfhi | mthi | mflo | mtlo | mult | multu | div | divu | add | addu
  | sub | subu | and | or | xor | slt | sltu => simp [encode, decode_encodeR, decodeSpecial]
  | bltz | bgez | bltzal | bgezal => simp [encode, decode_encodeI_regimm, decodeRegimm]
  | jal target =>
    have hreserved : (!p.jalFieldCheck || target.extractLsb' 6 15 == 0#15) = true := hwf
    simp only [encode, decode, fieldOp_encodeJ, fieldTarget_encodeJ, fieldJalReserved_encodeJ, hreserved,
      requireFields_true]
  | j | beq | bne | blez | bgtz | addi | addiu | slti | sltiu | andi | ori | xori | lui | lb | lh | lwl | lw | lbu | lhu
  | lwr | sb | sh | sw => simp [encode, decode]

/-! ## What the decoder reads is well-formed -/

/-- The instruction of a row with reserved fields was admitted by them (R101). -/
theorem requireFields_eq_ok_iff {ok : Bool} {i i' : Instr} : requireFields ok i = .ok i' ↔ ok = true ∧ i = i' := by
  cases ok <;> simp [requireFields]

/-- The function map has no JAL, whose target alone can be ill-formed (R96, R103). -/
theorem wellFormed_of_decodeSpecial {p : Params} {w : Word} {i : Instr} (h : decodeSpecial p w = .ok i) :
    i.wellFormed p = true := by
  unfold decodeSpecial at h
  split at h
  case h_26 => cases h
  all_goals
    obtain ⟨-, rfl⟩ := requireFields_eq_ok_iff.1 h
    rfl

/-- Nor has the map on `rt` (R97). -/
theorem wellFormed_of_decodeRegimm {p : Params} {w : Word} {i : Instr} (h : decodeRegimm w = .ok i) :
    i.wellFormed p = true := by
  unfold decodeRegimm at h
  split at h <;> cases h <;> rfl

/-- The reserved bits of JAL's word are those of its target (R103). -/
theorem fieldJalReserved_eq (w : Word) : fieldJalReserved w = (fieldTarget w).extractLsb' 6 15 := by
  simp [fieldJalReserved, fieldTarget, bitField]

/-- What the decoder reads is well-formed: it checks JAL's target (R103). -/
theorem wellFormed_of_decode {p : Params} {w : Word} {i : Instr} (h : decode p w = .ok i) :
    i.wellFormed p = true := by
  unfold decode at h
  split at h
  case h_1 => exact wellFormed_of_decodeSpecial h
  case h_2 => exact wellFormed_of_decodeRegimm h
  case h_4 =>
    obtain ⟨hreserved, rfl⟩ := requireFields_eq_ok_iff.1 h
    rwa [fieldJalReserved_eq] at hreserved
  case h_7 | h_8 | h_16 =>
    obtain ⟨-, rfl⟩ := requireFields_eq_ok_iff.1 h
    rfl
  case h_27 => cases h
  all_goals
    cases h
    rfl

/-- Settles O56: what the decoder reads is well-formed, so its own word decodes to it. -/
theorem decodedInstructionsAreWellFormed : Obligations.DecodedInstructionsAreWellFormed := by
  intro p w i h
  have hwf : i.wellFormed p = true := wellFormed_of_decode h
  exact ⟨hwf, decodeOfEncodeIsTheInstruction p i hwf⟩

end Sys2Proof.Machine

/-! PROOFS. The reset and the launch (10_state.md section 7, 70_reset_and_hazards.md section 2): the storage the loader
leaves (`loadedMem`), the state a launch answers (`launched`), and the exit status of each end (60_exceptions.md
section 4). -/

namespace Sys2Proof.Machine

/-! ## The storage the loader leaves -/

/-- Storage `m` with the words of an image stored from address `a` upward (R310). -/
def loadedMem : List Host.Cell → Nat → List Byte → List Host.Cell
  | m, a, b0 :: b1 :: b2 :: b3 :: rest => loadedMem (Memory.setWord m a (wordOfBytes b0 b1 b2 b3)) (a + 4) rest
  | m, _, _ => m

/-- Loading an image keeps the canonical form. -/
theorem loadedMem_wf {m : List Host.Cell} (hm : Memory.wf m = true) (a : Nat) (image : List Byte) :
    Memory.wf (loadedMem m a image) = true := by
  fun_induction loadedMem m a image with
  | case1 m a b0 b1 b2 b3 rest ih => exact ih (setWord_wf hm a _)
  | case2 => exact hm

/-- Loading an image lists bytes only at the image's addresses. -/
theorem mem_loadedMem {m : List Host.Cell} {a : Nat} {image : List Byte} {c : Host.Cell}
    (h : c ∈ loadedMem m a image) : (a ≤ c.1 ∧ c.1 < a + image.length) ∨ c ∈ m := by
  fun_induction loadedMem m a image with
  | case1 m a b0 b1 b2 b3 rest ih =>
    simp only [List.length_cons]
    rcases ih h with hnew | hold
    · exact .inl (by omega)
    · rcases mem_setWord hold with hword | hm
      · exact .inl (by omega)
      · exact .inr hm
  | case2 => exact .inr h

/-- Outside the image's addresses loading it leaves the byte there. -/
theorem getByte_loadedMem_outside {m : List Host.Cell} (hm : Memory.wf m = true) {a x : Nat} {image : List Byte}
    (hx : x < a ∨ a + image.length ≤ x) : Memory.getByte (loadedMem m a image) x = Memory.getByte m x := by
  fun_induction loadedMem m a image with
  | case1 m a b0 b1 b2 b3 rest ih =>
    simp only [List.length_cons] at hx
    rw [ih (setWord_wf hm a _) (by omega), getByte_setWord hm, if_neg (by omega)]
  | case2 => rfl

/-- At the image's addresses loading it leaves the image, byte by byte (R310). -/
theorem getByte_loadedMem_image {m : List Host.Cell} (hm : Memory.wf m = true) {a : Nat} {image : List Byte}
    (hlen : image.length % 4 = 0) {k : Nat} (hk : k < image.length) :
    Memory.getByte (loadedMem m a image) (a + k) = image[k] := by
  fun_induction loadedMem m a image generalizing k with
  | case1 m a b0 b1 b2 b3 rest ih =>
    simp only [List.length_cons] at hlen hk
    have hwf := setWord_wf hm a (wordOfBytes b0 b1 b2 b3)
    by_cases h4 : k < 4
    · rw [getByte_loadedMem_outside hwf (by omega), getByte_setWord hm, if_pos (by omega), Nat.add_sub_cancel_left]
      obtain ⟨h0, h1, h2, h3⟩ := byteAt_wordOfBytes b0 b1 b2 b3
      interval_cases k
      · exact h0
      · exact h1
      · exact h2
      · exact h3
    · obtain ⟨k, rfl⟩ : ∃ j, k = j + 4 := ⟨k - 4, by omega⟩
      have hrest := ih hwf (by omega) (k := k) (by omega)
      rwa [show a + 4 + k = a + (k + 4) by omega] at hrest
  | case2 image m a hshort =>
    match image, hshort with
    | [], _ => cases hk
    | [_], _ | [_, _], _ | [_, _, _], _ => cases hlen
    | b0 :: b1 :: b2 :: b3 :: rest, hshort => exact absurd rfl (hshort b0 b1 b2 b3 rest)

/-! ## The loader -/

/-- A forced write to instruction memory stores the word (R54, R310). -/
theorem memWrite_forced_instr {s : State} (hl : s.blocks = standardLayout) {a : Word} (v : Word)
    (hlo : 0x10000000 ≤ a.toNat) (hhi : a.toNat < 0x11000000) (hal : a.toNat % 4 = 0) :
    memWrite s a v true = .ok { s with mem := Memory.setWord s.mem a.toNat v } := by
  rw [memWrite_readOnly hl a v true (.inr ⟨hlo, hhi⟩), if_pos rfl, show 4 * (a.toNat / 4) = a.toNat by omega]

/-- The loader writes an image that fits in instruction memory, and nothing else (R310). -/
theorem loadImage_eq {s : State} (hl : s.blocks = standardLayout) {a : Word} {image : List Byte}
    (hlo : 0x10000000 ≤ a.toNat) (hal : a.toNat % 4 = 0) (hhi : a.toNat + image.length ≤ 0x11000000) :
    loadImage s a image = .ok { s with mem := loadedMem s.mem a.toNat image } := by
  fun_induction loadImage s a image with
  | case1 s a b0 b1 b2 b3 rest r hw =>
    simp only [List.length_cons] at hhi
    rw [memWrite_forced_instr hl _ hlo (by omega) hal] at hw
    cases hw
  | case2 s a b0 b1 b2 b3 rest s' hw ih =>
    simp only [List.length_cons] at hhi
    rw [memWrite_forced_instr hl _ hlo (by omega) hal] at hw
    cases hw
    have ha : (a + 4#32).toNat = a.toNat + 4 := by bv_omega
    rw [ih hl (by omega) (by omega) (by omega), ha]
    rfl
  | case3 image s a hshort =>
    have hmem : loadedMem s.mem a.toNat image = s.mem := by
      unfold loadedMem
      split
      · exact absurd rfl (hshort _ _ _ _ _)
      · rfl
    rw [hmem]

/-! ## The launch -/

/-- The state in which the first step of an admitted launch begins (R36, R310). -/
def launched (p : Params) (image input : List Byte) : State :=
  { preLaunch p input with mem := loadedMem [] 0x10000000 image, pcMax := pcMaxOf image.length }

section
variable {p : Params} {image input : List Byte}

/-- A launch of an admitted image answers its `launched` state (R310). -/
theorem launch_eq_launched (hlen : image.length % 4 = 0) (hmax : image.length ≤ 0x01000000) :
    launch p image input = .next (launched p image input) := by
  have hload : loadImage (preLaunch p input) imageBase image =
      .ok { preLaunch p input with mem := loadedMem [] 0x10000000 image } :=
    loadImage_eq rfl (by decide) (by decide) (by change 0x10000000 + _ ≤ _; omega)
  rw [launch, if_neg (not_not_intro hlen), if_neg (show ¬maxImageLength < image.length from Nat.not_lt.2 hmax), hload]
  rfl

/-- No register has a value but 0 after a launch (R36; D6). -/
theorem launched_reg (k : RegNum) : (launched p image input).reg k = 0#32 := by
  by_cases hk : k = 0#5 <;> simp [State.reg, hk, launched, preLaunch, State.reset]

theorem launched_byte_image (hlen : image.length % 4 = 0) {k : Nat} (hk : k < image.length) :
    (launched p image input).byte (0x10000000 + k) = image[k] :=
  getByte_loadedMem_image rfl hlen hk

theorem launched_byte_outside {a : Nat} (h : a < 0x10000000 ∨ 0x10000000 + image.length ≤ a) :
    (launched p image input).byte a = 0#8 :=
  getByte_loadedMem_outside rfl h

/-- PCMax is past the image (R25). -/
theorem launched_pcMax (hmax : image.length ≤ 0x01000000) :
    (launched p image input).pcMax.toNat = 0x10000000 + image.length := by
  change (0x10000000#32 + BitVec.ofNat 32 image.length).toNat = _
  rw [BitVec.toNat_add, BitVec.toNat_ofNat, BitVec.toNat_ofNat]
  omega

/-- A launch under legal parameters begins in a state of the invariant: the image lies in instruction memory (R52, R310). -/
theorem launched_inv (hmax : image.length ≤ 0x01000000) (hp : p.legal = true) : Inv (launched p image input) where
  memWf := loadedMem_wf rfl _ _
  backed := by
    intro c hc
    rcases mem_loadedMem hc with hin | hnil
    · exact .inr (.inl (by omega))
    · cases hnil
  sentinelZero a ha := launched_byte_outside (by omega)
  layout := rfl
  window := by
    rw [launched_pcMax hmax]
    exact ⟨rfl, by omega, by omega⟩
  legal := hp
  running := show imageBase ≠ 0#32 by decide

end

/-- Settles O2: the two refusals by the tests of the launch, the rest by the state `launched`. -/
theorem launchLoadsTheImageOrRefuses : Obligations.LaunchLoadsTheImageOrRefuses := by
  refine fun p image input => ⟨fun hlen => ?notWordMultiple, fun hlen hmax => ?tooLarge, fun hlen hmax => ?loads⟩
  case notWordMultiple => exact if_pos hlen
  case tooLarge => rw [launch, if_neg (not_not_intro hlen), if_pos (show maxImageLength < image.length from hmax)]
  case loads =>
    exact ⟨launched p image input, launch_eq_launched hlen hmax, launched_pcMax hmax,
      fun _ => launched_byte_image hlen, fun _ => launched_byte_outside, rfl, rfl, rfl, launched_reg, rfl, rfl, rfl,
      rfl, rfl, rfl, rfl, launched_inv hmax⟩

/-! ## Reset -/

/-- The reset state is the launch of the empty image and input under the default parameters (R36; log 3). -/
theorem reset_eq_launched : State.reset = launched Params.default [] [] := rfl

/-- Settles O1: the fields by the state's definition, the registers and the bytes as those of a launch. -/
theorem resetHoldsTheValuesOfTheTable : Obligations.ResetHoldsTheValuesOfTheTable := by
  rw [Obligations.ResetHoldsTheValuesOfTheTable, reset_eq_launched]
  exact ⟨rfl, rfl, rfl, launched_reg, rfl, rfl, rfl, rfl, rfl, fun _ => rfl, rfl, rfl, launch_eq_launched rfl (by decide)⟩

/-- Settles O50: reset is a launch under legal parameters. -/
theorem resetMeetsTheInvariant : Obligations.ResetMeetsTheInvariant := by
  rw [Obligations.ResetMeetsTheInvariant, reset_eq_launched]
  exact launched_inv (by decide) rfl

/-! ## Exit status -/

/-- Legal parameters give the three kinds of trap three codes (R281). -/
theorem legal_iff {p : Params} :
    p.legal = true ↔ p.exitCodes.ovf ≠ p.exitCodes.mem ∧ p.exitCodes.ovf ≠ p.exitCodes.inv ∧
      p.exitCodes.mem ≠ p.exitCodes.inv := by
  simp [Params.legal, and_assoc]

/-- Settles O59: each status by its case, the three codes by the legality of the parameters. -/
theorem exitStatusTellsTheKind : Obligations.ExitStatusTellsTheKind :=
  fun _ _ _ _ _ => ⟨rfl, rfl, rfl, rfl, rfl, legal_iff.1, rfl, rfl, rfl⟩

end Sys2Proof.Machine

/-! PROOFS. The statements of 42_alu.md on the immediate addition and comparisons and of 43_control.md on the jumps and
branches, settled from the value of the immediate and of each target. -/

namespace Sys2Proof.Machine

/-! ## The immediate addition and comparisons -/

/-- Settles O26: each is one register write, and the sign-extended immediate has the immediate's value. -/
theorem immediateAddAndCompare : Obligations.ImmediateAddAndCompare := by
  refine ⟨?_, ?_, ?_, fun s rt rs imm => ⟨?addiu, ?slti, ?sltiu⟩⟩
  iterate 3 exact fun _ _ h => by simp only [decode, h, noReserved, if_true]
  case addiu => rw [← toInt_simm, ← add_eq_ofInt_toInt]; exact setsReg_of_finishReg rfl
  case slti => rw [← toInt_simm, ← flagWord_decide]; exact setsReg_of_finishReg rfl
  case sltiu => rw [← flagWord_decide]; exact setsReg_of_finishReg rfl

/-! ## Targets -/

/-- The region target is the top four bits of PC, the field and two zero bits (R222). -/
theorem regionTarget_eq_append (s : State) (target : Target) :
    regionTarget s target = s.pc.extractLsb' 28 4 ++ target ++ 0#2 := by
  apply BitVec.eq_of_getLsbD_eq
  intro i hi
  have hmask : (0xF0000000#32).getLsbD i = decide (28 ≤ i) := by
    interval_cases i <;> rfl
  change (regionTarget s target).getLsbD i =
    BitVec.getLsbD (w := 4 + 26 + 2) (s.pc.extractLsb' 28 4 ++ target ++ 0#2) i
  simp only [regionTarget, BitVec.getLsbD_or, BitVec.getLsbD_and, hmask, BitVec.getLsbD_shiftLeft,
    BitVec.getLsbD_setWidth, BitVec.getLsbD_append, BitVec.getLsbD_extractLsb']
  by_cases h2 : i < 2
  · simp [h2, hi, show ¬28 ≤ i by omega]
  · by_cases h28 : i < 28
    · simp [h2, hi, show ¬28 ≤ i by omega, show i - 2 < 26 by omega, show i - 2 < 32 by omega]
    · simp [h2, hi, show 28 ≤ i by omega, show ¬i - 2 < 26 by omega, show i - 2 - 26 < 4 by omega,
        show 28 + (i - 2 - 26) = i by omega, BitVec.getLsbD_of_ge target (i - 2) (by omega)]

/-- The relative target is four times the signed immediate beyond PC (R221). -/
theorem relTarget_eq_add (s : State) (imm : Imm) :
    relTarget s imm = s.pc + BitVec.ofInt 32 (4 * imm.toInt) := by
  have h : simm imm <<< 2 = BitVec.ofInt 32 (4 * imm.toInt) := by
    rw [BitVec.ofInt_mul, BitVec.shiftLeft_eq_mul_twoPow, mul_comm]
    rfl
  rw [relTarget, h]

/-! ## Jumps -/

/-- Settles O30: J is taken under the condition `true`. -/
theorem jumpLatchesTheRegionTarget : Obligations.JumpLatchesTheRegionTarget := by
  refine ⟨fun _ _ h => by simp only [decode, h, noReserved, if_true], fun s target => ?_⟩
  rw [← regionTarget_eq_append]
  exact transfers_of_branchIf (c := true) rfl (by simp)

/-- Settles O31: JAL is taken under the condition `true`, after the link. -/
theorem jumpAndLinkLatchesAndLinks : Obligations.JumpAndLinkLatchesAndLinks := by
  refine ⟨fun _ _ h => by simp only [decode, h, requireFields]; rfl, fun s target => ?_⟩
  rw [← regionTarget_eq_append]
  exact transfersAndLinks_of_branchIf (c := true) rfl (by simp)

/-! ## Branches -/

/-- The words of a sub-opcode of REGIMM are those its row of the map reads (R97). -/
theorem regimmWords_of_row {sub : RegNum} {i : Word → Instr}
    (row : ∀ w, fieldRt w = sub → decodeRegimm w = .ok (i w)) : RegimmWords sub i :=
  fun p w hop hrt => (decode_of_regimm hop p).trans (row w hrt)

/-- Settles O32: each is taken exactly where its signed test holds. -/
theorem zeroBranchesTestTheSign : Obligations.ZeroBranchesTestTheSign := by
  refine ⟨?_, ?_, ?blez, ?bgtz, fun s rs imm => ?branches⟩
  iterate 2 exact regimmWords_of_row fun _ h => by simp only [decodeRegimm, h]
  case blez => exact fun _ _ h => by simp only [decode, h, requireFields]
  case bgtz => exact fun _ _ h => by simp only [decode, h, requireFields]
  case branches =>
    rw [← relTarget_eq_add]
    exact ⟨transfers_of_branchIf rfl decide_eq_true_iff, transfers_of_branchIf rfl decide_eq_true_iff,
      transfers_of_branchIf rfl decide_eq_true_iff, transfers_of_branchIf rfl decide_eq_true_iff⟩

/-- Settles O33: the test and the target are read before the link is written. -/
theorem linkingBranchesLinkAlways : Obligations.LinkingBranchesLinkAlways := by
  refine ⟨?_, ?_, fun s rs imm => ?branches⟩
  iterate 2 exact regimmWords_of_row fun _ h => by simp only [decodeRegimm, h]
  case branches =>
    rw [← relTarget_eq_add]
    exact ⟨transfersAndLinks_of_branchIf rfl decide_eq_true_iff, transfersAndLinks_of_branchIf rfl decide_eq_true_iff⟩

/-- Settles O34: each is taken exactly where its comparison holds. -/
theorem equalityBranchesCompareRegisters : Obligations.EqualityBranchesCompareRegisters := by
  refine ⟨?_, ?_, fun s rs rt imm => ?branches⟩
  iterate 2 exact fun _ _ h => by simp only [decode, h, noReserved, if_true]
  case branches =>
    rw [← relTarget_eq_add]
    exact ⟨transfers_of_branchIf rfl beq_iff_eq, transfers_of_branchIf rfl bne_iff_ne⟩

end Sys2Proof.Machine

/-! PROOFS. The statements of 44_loadstore.md on the loads: the effective address, what a load reads where a Block holds
the address (`loadLane_backed`) and at the input port (`loadLane_inputWord`), and the merges of LWL and LWR byte by
byte. -/

namespace Sys2Proof.Machine

/-! ## The effective address -/

/-- The unsigned value of the sign-extended immediate is the immediate modulo 2^32 (R92). -/
theorem toNat_simm (imm : Imm) : ((simm imm).toNat : Int) = imm.toInt % 2 ^ 32 := by
  have h : (simm imm).toNat = (imm.toInt % 2 ^ 32).toNat := BitVec.toNat_ofInt _
  rw [h, Int.toNat_of_nonneg (Int.emod_nonneg _ (by decide))]

/-- Settles O35: both sides are the sum of two words modulo 2^32. -/
theorem effectiveAddressWraps : Obligations.EffectiveAddressWraps := by
  intro s imm rs
  rw [effAddr, BitVec.toNat_add, Int.natCast_mod, Nat.cast_add, toNat_simm, Nat.cast_pow, Nat.cast_ofNat,
    Int.add_emod_emod]

/-! ## What a load reads -/

/-- An address that is a multiple of 4 is that of its word (R250). -/
theorem wordAddr_of_mod_four {a : Word} (h : a.toNat % 4 = 0) : wordAddr a = a := by
  apply BitVec.eq_of_toNat_eq
  rw [toNat_wordAddr]
  omega

section
variable {s : State} {a : Word}

/-- LW's load of an aligned address is a load of the whole word around it (R257). -/
theorem lw_eq_loadLane (h : a.toNat % 4 = 0) (r : RegNum) :
    aligned s a 4 (withRead s a false fun w s' => finishReg s' r w) = loadLane s r a id := by
  rw [aligned_of_mod h, loadLane, wordAddr_of_mod_four h]
  rfl

/-- Where a Block holds the address a load writes the value it takes from the word stored around it (R252). -/
theorem loadLane_backed (hl : s.blocks = standardLayout) (h : Backed a.toNat) (r : RegNum) (value : Word → Word) :
    loadLane s r a value = finishReg s r (value (Memory.getWord s.mem (4 * (a.toNat / 4)))) := by
  have hword : 4 * ((wordAddr a).toNat / 4) = 4 * (a.toNat / 4) := by
    rw [toNat_wordAddr]
    omega
  simp only [loadLane, withRead, memRead_backed hl _ false (backed_wordAddr.2 h), hword]

/-- At the input port's word a load writes the value it takes from the port's word, one input byte consumed (R59, R60). -/
theorem loadLane_inputWord (h : InInputWord a.toNat) (r : RegNum) (value : Word → Word) :
    loadLane s r a value = finishReg { s with input := s.input.tail } r (value (portWord s.input)) := by
  simp only [loadLane, withRead, wordAddr_of_inInputWord h, memRead_input, inputRead_eq]

end

/-- An instruction that writes one register after dropping an input byte reads the input (R60). -/
theorem readsInput_of_finishReg {i : Instr} {s : State} {r : RegNum} {v : Word}
    (h : exec i s = finishReg { s with input := s.input.tail } r v) : ReadsInput i s r v := by
  obtain ⟨hreg, hregs, hcontrol, hhilo, hmem, ⟨hinput, houtput⟩, hfixed⟩ :=
    setReg_writesOnlyReg { s with input := s.input.tail } r v
  exact ⟨_, h, hreg, hregs, hcontrol, hhilo, hmem, hinput, houtput, hfixed⟩

/-! ## Bytes, halfwords and words -/

/-- Settles O36: the lane of the word around the address holds the bytes at the address. -/
theorem byteAndHalfLoadsReadTheirBytes : Obligations.ByteAndHalfLoadsReadTheirBytes := by
  refine ⟨?_, ?_, ?_, ?_, fun s rt imm rs hl => ?loads⟩
  iterate 4 exact fun _ _ h => by simp only [decode, h, noReserved, if_true]
  case loads =>
    intro a hb
    have lane (value : Word → Word) := loadLane_backed hl hb rt value
    refine ⟨setsReg_of_finishReg ?lb, setsReg_of_finishReg ?lbu,
      fun heven => ⟨setsReg_of_finishReg ?lh, setsReg_of_finishReg ?lhu⟩⟩
    case lb => exact (lane _).trans (by rw [byteAt_lane]; rfl)
    case lbu => exact (lane _).trans (by rw [byteAt_lane]; rfl)
    case lh => exact (aligned_of_mod heven s _).trans ((lane _).trans (by rw [halfAt_lane _ _ heven]; rfl))
    case lhu => exact (aligned_of_mod heven s _).trans ((lane _).trans (by rw [halfAt_lane _ _ heven]; rfl))

/-- A stored word is the four bytes from its address, the first the most significant (R63). -/
theorem getWord_eq_append (s : State) (a : Nat) :
    Memory.getWord s.mem a = s.byte a ++ s.byte (a + 1) ++ s.byte (a + 2) ++ s.byte (a + 3) :=
  wordOfBytes_eq_append ..

/-- Settles O37: the word around an aligned address is the word at it. -/
theorem wordLoadReadsFourBytes : Obligations.WordLoadReadsFourBytes := by
  refine ⟨fun _ _ h => by simp only [decode, h, noReserved, if_true], fun s rt imm rs hl => ?load⟩
  case load =>
    intro a hb hal
    refine setsReg_of_finishReg ((lw_eq_loadLane hal rt).trans ((loadLane_backed hl hb rt id).trans ?_))
    rw [← getWord_eq_append, show 4 * ((effAddr s imm rs).toNat / 4) = a by omega]
    rfl

/-! ## The merges of LWL and LWR -/

/-- A bit of a byte of a word is that bit of the word, counted from the byte's lowest (R251). -/
theorem getLsbD_byteAt (w : Word) (j : Nat) {i : Nat} (hi : i < 8) :
    (byteAt w j).getLsbD i = w.getLsbD (8 * (3 - j) + i) := by
  simp [byteAt, hi]

/-- LWL's merge: the bytes from offset `n` on come first, the low bytes of the old RT last (R258). -/
theorem byteAt_mergeLeft (w old : Word) (n : Nat) {j : Nat} (hj : j < 4) :
    byteAt (mergeLeft w old n) j = if j + n < 4 then byteAt w (j + n) else byteAt old j := by
  apply BitVec.eq_of_getLsbD_eq
  intro i hi
  have hbit : 8 * (3 - j) + i < 32 := by omega
  rw [apply_ite (BitVec.getLsbD · i)]
  simp only [getLsbD_byteAt _ _ hi, mergeLeft, BitVec.getLsbD_or, BitVec.getLsbD_and, BitVec.getLsbD_shiftLeft,
    BitVec.getLsbD_ofNat, Nat.testBit_two_pow_sub_one, hbit, decide_true, Bool.true_and]
  split
  · have hpos : 8 * (3 - j) + i - 8 * n = 8 * (3 - (j + n)) + i := by omega
    have hge : ¬8 * (3 - j) + i < 8 * n := by omega
    simp [hge, hpos]
  · have hlt : 8 * (3 - j) + i < 8 * n := by omega
    simp [hlt]

/-- LWR's merge: the high bytes of the old RT come first, the bytes up to offset `n` last (R259). -/
theorem byteAt_mergeRight (w old : Word) {n j : Nat} (hn : n < 4) (hj : j < 4) :
    byteAt (mergeRight w old n) j = if 3 ≤ j + n then byteAt w (j + n - 3) else byteAt old j := by
  apply BitVec.eq_of_getLsbD_eq
  intro i hi
  have hbit : 8 * (3 - j) + i < 32 := by omega
  have hmask : (0xFFFFFFFF#32).getLsbD (8 * (3 - n) + (8 * (3 - j) + i)) = decide (3 ≤ j + n) := by
    have : 0xFFFFFFFF#32 = BitVec.allOnes 32 := rfl
    rw [this, BitVec.getLsbD_allOnes, decide_eq_decide]
    omega
  rw [apply_ite (BitVec.getLsbD · i)]
  simp only [getLsbD_byteAt _ _ hi, mergeRight, BitVec.getLsbD_or, BitVec.getLsbD_and, BitVec.getLsbD_not,
    BitVec.getLsbD_ushiftRight, hbit, hmask, decide_true, Bool.true_and]
  split
  · have hpos : 8 * (3 - n) + (8 * (3 - j) + i) = 8 * (3 - (j + n - 3)) + i := by omega
    simp [*]
  · have hzero : w.getLsbD (8 * (3 - n) + (8 * (3 - j) + i)) = false := BitVec.getLsbD_of_ge _ _ (by omega)
    simp [*]

/-- A byte of a stored word is the byte at its address (R63). -/
theorem byteAt_getWord_eq_byte {s : State} {wa k x : Nat} (hk : k < 4) (hx : wa + k = x) :
    byteAt (Memory.getWord s.mem wa) k = s.byte x :=
  hx ▸ byteAt_getWord s.mem wa k hk

/-- Settles O38: the merges, of the word stored around the address. -/
theorem loadWordLeftAndRightMerge : Obligations.LoadWordLeftAndRightMerge := by
  refine ⟨?_, ?_, fun s rt imm rs hl => ?loads⟩
  iterate 2 exact fun _ _ h => by simp only [decode, h, noReserved, if_true]
  case loads =>
    intro a hb
    have hn : a % 4 < 4 := Nat.mod_lt _ (by decide)
    refine ⟨⟨_, setsReg_of_finishReg (loadLane_backed hl hb rt _), fun j hj => ?lwl⟩,
      ⟨_, setsReg_of_finishReg (loadLane_backed hl hb rt _), fun j hj => ?lwr⟩⟩
    case lwl =>
      have hbyte : 4 * (a / 4) + (j + a % 4) = a + j := by omega
      exact (byteAt_mergeLeft _ _ _ hj).trans
        (ite_congr rfl (fun h => byteAt_getWord_eq_byte h hbyte) fun _ => rfl)
    case lwr =>
      have hbyte (h : 3 ≤ j + a % 4) : 4 * (a / 4) + (j + a % 4 - 3) = a + j - 3 := by omega
      exact (byteAt_mergeRight _ _ hn hj).trans
        (ite_congr rfl (fun h => byteAt_getWord_eq_byte (by omega) (hbyte h)) fun _ => rfl)

/-- A word whose bytes are the four bytes from `a` is these bytes put together (R63). -/
theorem eq_append_of_byteAt {w : Word} {s : State} {a : Nat} (h : ∀ j < 4, byteAt w j = s.byte (a + j)) :
    w = s.byte a ++ s.byte (a + 1) ++ s.byte (a + 2) ++ s.byte (a + 3) := by
  have hbytes := wordOfBytes_byteAt w
  rw [h 0 (by decide), h 1 (by decide), h 2 (by decide), h 3 (by decide)] at hbytes
  rw [← hbytes]
  exact wordOfBytes_eq_append ..

/-- Settles O39: LWL has left the bytes of A's word, and LWR fills in those of the next word below them. -/
theorem lwlLwrPairLoadsTheUnalignedWord : Obligations.LwlLwrPairLoadsTheUnalignedWord := by
  intro s rt imm imm' rs rs' hl hrt a hb hb'
  obtain ⟨-, -, hloads⟩ := loadWordLeftAndRightMerge
  obtain ⟨⟨v, ⟨t, hx, hreg, -, -, -, hmem, -, -, -, hblocks, -⟩, hleft⟩, -⟩ := hloads s rt imm rs hl hb
  refine ⟨t, hx, fun ha => ?_⟩
  obtain ⟨-, ⟨v', ⟨u, hx', hreg', -⟩, hright⟩⟩ := hloads t rt imm' rs' (hblocks.trans hl) (by rwa [ha])
  refine ⟨u, hx', ?_⟩
  rw [hreg', written, if_neg hrt]
  apply eq_append_of_byteAt
  intro j hj
  rw [hright j hj, ha, hreg, written, if_neg hrt, hleft j hj]
  split
  · rw [hmem, show a + 3 + j - 3 = a + j by omega]
  · rw [if_pos (by omega)]

/-! ## The input port -/

/-- Settles O41: each load is its lane of the port's word; a halfword of it is two bytes. -/
theorem loadsFromTheInputPortConsumeOneByte : Obligations.LoadsFromTheInputPortConsumeOneByte := by
  intro s rt imm rs a w hp
  have lane (value : Word → Word) := loadLane_inputWord (s := s) hp rt value
  have half (heven : a % 2 = 0) : halfAt w (a % 4) = byteAt w (a % 4) ++ byteAt w (a % 4 + 1) :=
    halfAt_eq_append w (a % 4) (by omega)
  refine ⟨readsInput_of_finishReg (lane _), readsInput_of_finishReg (lane _), readsInput_of_finishReg (lane _),
    readsInput_of_finishReg (lane _), fun heven => ?halves,
    fun hal => readsInput_of_finishReg ((lw_eq_loadLane hal rt).trans (lane _))⟩
  case halves =>
    rw [← half heven]
    exact ⟨readsInput_of_finishReg ((aligned_of_mod heven s _).trans (lane _)),
      readsInput_of_finishReg ((aligned_of_mod heven s _).trans (lane _))⟩

end Sys2Proof.Machine

/-! PROOFS. The statements of 44_loadstore.md on the stores: the merge of a sub-word store byte by byte
(`byteAt_merge`), what a word stored in data memory leaves (`storesBytes_of_setWord`), and the load of what a store
left. -/

namespace Sys2Proof.Machine

/-! ## The merge of a sub-word store -/

/-- The merge with a mask of the low `m` bytes, `q` bytes up, takes those bytes of `r` and leaves the rest of `w`
(R260 to R262). -/
theorem byteAt_merge {mask : Word} {m : Nat} (hmask : ∀ i < 32, mask.getLsbD i = decide (i < 8 * m)) (w r : Word)
    (q : Nat) {k : Nat} (hk : k < 4) :
    byteAt ((w &&& ~~~(mask <<< (8 * q))) ||| ((r &&& mask) <<< (8 * q))) k =
      if q + k ≤ 3 ∧ 3 < q + k + m then byteAt r (q + k) else byteAt w k := by
  apply BitVec.eq_of_getLsbD_eq
  intro i hi
  have hbit : 8 * (3 - k) + i < 32 := by omega
  rw [apply_ite (BitVec.getLsbD · i)]
  simp only [getLsbD_byteAt _ _ hi, BitVec.getLsbD_or, BitVec.getLsbD_and, BitVec.getLsbD_not,
    BitVec.getLsbD_shiftLeft, hmask _ (Nat.lt_of_le_of_lt (Nat.sub_le _ _) hbit), hbit, decide_true, Bool.true_and]
  by_cases hlow : 8 * (3 - k) + i < 8 * q
  · simp [hlow, show ¬(q + k ≤ 3 ∧ 3 < q + k + m) by omega]
  · have hpos : 8 * (3 - k) + i - 8 * q = 8 * (3 - (q + k)) + i := by omega
    have hin : 8 * (3 - (q + k)) + i < 8 * m ↔ q + k ≤ 3 ∧ 3 < q + k + m := by omega
    by_cases h : q + k ≤ 3 ∧ 3 < q + k + m <;> simp [hlow, hpos, hin, h]

/-! ## Stores in data memory -/

section
variable {s : State} {a : Word}

/-- Data memory holds whole words: the word around an address lies in it with it (R52, R250). -/
theorem inData_wordAddr (h : InData a.toNat) : InData (wordAddr a).toNat := by
  rw [toNat_wordAddr]
  omega

/-- A write to data memory stores the word around the address (R58). -/
theorem finishWrite_data (hl : s.blocks = standardLayout) (h : InData a.toNat) (v : Word) :
    finishWrite s a v = .next { s with mem := Memory.setWord s.mem (4 * (a.toNat / 4)) v } := by
  simp only [finishWrite, memWrite_data hl a v false h]

/-- A sub-word store to data memory stores the merged word (R262). -/
theorem subWordStore_data (hl : s.blocks = standardLayout) (h : InData a.toNat) (mask v : Word) :
    subWordStore s (wordAddr a) mask v = .next { s with
      mem := Memory.setWord s.mem (4 * (a.toNat / 4)) ((Memory.getWord s.mem (4 * (a.toNat / 4)) &&& ~~~mask) ||| v) } := by
  have hword : 4 * ((wordAddr a).toNat / 4) = 4 * (a.toNat / 4) := by
    rw [toNat_wordAddr]
    omega
  have hd := inData_wordAddr h
  rw [subWordStore_of_ok (memRead_backed hl (wordAddr a) true (.inr (.inr hd))), finishWrite_data hl hd, hword]

end

section
variable {i : Instr} {s : State} {bytes : List Byte} (hm : Memory.wf s.mem = true)
include hm

/-- A stored word that differs from the bytes there only in some of them stores these bytes (R63). -/
theorem storesBytes_of_setWord {a wa : Nat} {w : Word}
    (h : exec i s = .next { s with mem := Memory.setWord s.mem wa w }) (hlo : wa ≤ a) (hhi : a + bytes.length ≤ wa + 4)
    (hnew : ∀ k, (hk : k < bytes.length) → byteAt w (a - wa + k) = bytes[k])
    (hold : ∀ k < 4, wa + k < a ∨ a + bytes.length ≤ wa + k → byteAt w k = s.byte (wa + k)) :
    StoresBytes i s a bytes := by
  refine ⟨_, h, fun k hk => ?stored, fun b hb => ?others, fun _ => rfl, ⟨rfl, rfl, rfl⟩, ⟨rfl, rfl⟩, ⟨rfl, rfl⟩,
    ⟨rfl, rfl, rfl, rfl⟩⟩
  case stored =>
    refine (getByte_setWord hm wa w (a + k)).trans ?_
    rw [if_pos (by omega), ← hnew k hk, show a + k - wa = a - wa + k by omega]
  case others =>
    refine (getByte_setWord hm wa w b).trans ?_
    split
    · obtain ⟨k, rfl⟩ : ∃ k, b = wa + k := ⟨b - wa, by omega⟩
      rw [Nat.add_sub_cancel_left]
      exact hold k (by omega) hb
    · rfl

/-- A sub-word store of the low bytes of `r` at an address of data memory stores these bytes there: the mask covers
their lanes of the word (R262). -/
theorem storesBytes_of_subWordStore {a mask r : Word} {q : Nat}
    (hl : s.blocks = standardLayout) (hd : InData a.toNat)
    (h : exec i s = subWordStore s (wordAddr a) (mask <<< (8 * q)) ((r &&& mask) <<< (8 * q)))
    (hmask : ∀ i < 32, mask.getLsbD i = decide (i < 8 * bytes.length)) (hq : q + a.toNat % 4 + bytes.length = 4)
    (hbytes : ∀ k, (hk : k < bytes.length) → byteAt r (4 - bytes.length + k) = bytes[k]) :
    StoresBytes i s a.toNat bytes := by
  refine storesBytes_of_setWord hm (h.trans (subWordStore_data hl hd _ _)) (by omega) (by omega)
    (fun k hk => ?new) (fun k hk hout => ?old)
  case new =>
    rw [byteAt_merge hmask _ _ _ (by omega), if_pos (by omega), ← hbytes k hk]
    congr 1
    omega
  case old => rw [byteAt_merge hmask _ _ _ hk, if_neg (by omega), byteAt_getWord_eq_byte hk rfl]

end

/-- The mask of SB covers the low byte (R260). -/
theorem getLsbD_byteMask : ∀ i < 32, (0xFF#32).getLsbD i = decide (i < 8) := by decide

/-- The mask of SH covers the low halfword (R261). -/
theorem getLsbD_halfMask : ∀ i < 32, (0xFFFF#32).getLsbD i = decide (i < 16) := by decide

/-- Settles O43: SB stores one byte under its mask, SH two. -/
theorem subWordStoresChangeOnlyTheirBytes : Obligations.SubWordStoresChangeOnlyTheirBytes := by
  refine ⟨?_, ?_, fun s rt imm rs hl hm => ?stores⟩
  iterate 2 exact fun _ _ h => by simp only [decode, h, noReserved, if_true]
  case stores =>
    intro a hd
    refine ⟨?sb, fun heven => ?sh⟩
    case sb =>
      have hlane : 3 - a % 4 + a % 4 + 1 = 4 := by omega
      refine storesBytes_of_subWordStore hm hl hd rfl getLsbD_byteMask hlane fun k hk => ?_
      match k, hk with
      | 0, _ => rfl
    case sh =>
      have hlane : 2 - a % 4 + a % 4 + 2 = 4 := by omega
      refine storesBytes_of_subWordStore hm hl hd (aligned_of_mod heven s _) getLsbD_halfMask hlane fun k hk => ?_
      match k, hk with
      | 0, _ | 1, _ => rfl

/-- Settles O44: SW stores the whole word, or emits. -/
theorem wordStoreWritesOrEmits : Obligations.WordStoreWritesOrEmits := by
  refine ⟨fun _ _ h => by simp only [decode, h, noReserved, if_true], fun s rt imm rs hl hm => ?stores,
    fun s rt imm rs ha => ?emits⟩
  case stores =>
    intro a hd hal
    have hword : 4 * (a / 4) = a := by omega
    have hx : exec (.sw rt imm rs) s = .next { s with mem := Memory.setWord s.mem (4 * (a / 4)) (s.reg rt) } :=
      (aligned_of_mod hal s _).trans (finishWrite_data hl hd _)
    rw [hword] at hx
    refine storesBytes_of_setWord hm hx le_rfl le_rfl (fun k hk => ?_) fun k hk hout => ?_
    · rw [Nat.sub_self, Nat.zero_add]
      match k, hk with
      | 0, _ | 1, _ | 2, _ | 3, _ => rfl
    · change a + k < a ∨ a + 4 ≤ a + k at hout
      omega
  case emits =>
    have hx : exec (.sw rt imm rs) s = .next (outputWrite s (s.reg rt)) := by
      have hal : (effAddr s imm rs).toNat % 4 = 0 := by rw [ha]; rfl
      refine (aligned_of_mod hal s _).trans ?_
      rw [ha, finishWrite, show (0x30000004#32 : Word) = outputPort from rfl, memWrite_output]
    refine ⟨_, hx, ?_, rfl, outputWrite_reg _ _, ⟨rfl, rfl, rfl⟩, ⟨rfl, rfl⟩, outputWrite_byte _ _,
      ⟨rfl, rfl, rfl, rfl⟩⟩
    rw [outputWrite_output, BitVec.setWidth_eq_extractLsb' (by decide)]

/-! ## A load of what a store left -/

/-- A store that completes leaves its bytes, the layout and every effective address (R250). -/
theorem StoresBytes.next {i : Instr} {s : State} {a : Nat} {bytes : List Byte} (h : StoresBytes i s a bytes) :
    ∃ t, exec i s = .next t ∧ (∀ k, (hk : k < bytes.length) → t.byte (a + k) = bytes[k]) ∧ t.blocks = s.blocks ∧
      ∀ imm rs, effAddr t imm rs = effAddr s imm rs := by
  obtain ⟨t, hx, hbytes, -, hregs, -, -, -, -, -, hblocks, -⟩ := h
  exact ⟨t, hx, hbytes, hblocks, fun imm rs => by rw [effAddr, effAddr, hregs rs]⟩

/-- The low bits of a word, zero-extended, are the word under their mask. -/
theorem setWidth_extractLsb'_low {mask : Word} {n : Nat} (hmask : ∀ i < 32, mask.getLsbD i = decide (i < n))
    (r : Word) : (r.extractLsb' 0 n).setWidth 32 = r &&& mask := by
  apply BitVec.eq_of_getLsbD_eq
  intro i hi
  rw [BitVec.getLsbD_and, hmask i hi, BitVec.getLsbD_setWidth, BitVec.getLsbD_extractLsb', Nat.zero_add,
    decide_eq_true hi, Bool.true_and, Bool.and_comm]

/-- Settles O47: the load reads at the store's address, in the layout the store leaves, the bytes it stored. -/
theorem loadReturnsWhatTheStoreLeft : Obligations.LoadReturnsWhatTheStoreLeft := by
  intro s rt r imm rs hl hm a hd
  have hbacked : Backed a := .inr (.inr hd)
  obtain ⟨-, -, hsubword⟩ := subWordStoresChangeOnlyTheirBytes
  obtain ⟨hsb, hsh⟩ := hsubword s rt imm rs hl hm hd
  obtain ⟨-, -, -, -, hloads⟩ := byteAndHalfLoadsReadTheirBytes
  obtain ⟨-, hsw, -⟩ := wordStoreWritesOrEmits
  obtain ⟨-, hlw⟩ := wordLoadReadsFourBytes
  refine ⟨?byte, fun heven => ?half, fun hal => ?word⟩
  case byte =>
    obtain ⟨t, hx, hbytes, hblocks, ha⟩ := hsb.next
    obtain ⟨-, hlbu, -⟩ := hloads t r imm rs (hblocks.trans hl) (by rwa [ha])
    have hbyte : t.byte a = (s.reg rt).extractLsb' 0 8 := hbytes 0 Nat.zero_lt_one
    rw [ha, hbyte, setWidth_extractLsb'_low getLsbD_byteMask] at hlbu
    exact ⟨t, hx, hlbu⟩
  case half =>
    obtain ⟨t, hx, hbytes, hblocks, ha⟩ := (hsh heven).next
    obtain ⟨-, -, hhalf⟩ := hloads t r imm rs (hblocks.trans hl) (by rwa [ha])
    obtain ⟨-, hlhu⟩ := hhalf (by rwa [ha])
    have hbytes' : t.byte a ++ t.byte (a + 1) = (s.reg rt).extractLsb' 0 16 :=
      (congrArg₂ (· ++ ·) (hbytes 0 Nat.zero_lt_two) (hbytes 1 Nat.one_lt_two)).trans
        (halfAt_eq_append (s.reg rt) 2 (.inr rfl)).symm
    rw [ha, hbytes', setWidth_extractLsb'_low getLsbD_halfMask] at hlhu
    exact ⟨t, hx, hlhu⟩
  case word =>
    obtain ⟨t, hx, hbytes, hblocks, ha⟩ := (hsw s rt imm rs hl hm hd hal).next
    have hload := hlw t r imm rs (hblocks.trans hl) (by rwa [ha]) (by rwa [ha])
    have hword : s.reg rt = t.byte a ++ t.byte (a + 1) ++ t.byte (a + 2) ++ t.byte (a + 3) := by
      apply eq_append_of_byteAt
      intro j hj
      rw [hbytes j hj]
      match j, hj with
      | 0, _ | 1, _ | 2, _ | 3, _ => rfl
    rw [ha, ← hword] at hload
    exact ⟨t, hx, hload⟩

end Sys2Proof.Machine
